-- ==== Sys2Proof/Word.lean ====
section
/-! DEFINITION. The unit's plain data: words, bytes (00_scope.md R5, R7) and the two groups of eight words the
compression works on (10_state.md R20, R28). Every value is unsigned; `+` on words is addition modulo 2^32 (R8). -/

namespace Sys2Proof

/-- A word, "a 32-bit unsigned integer" (R5). -/
abbrev Word := BitVec 32

/-- A byte (R7). -/
abbrev Byte := BitVec 8

/-- The state `H[0..7]`, the chaining value: eight words, `H[0]` first (R20). -/
structure Chain where
  h0 : Word
  h1 : Word
  h2 : Word
  h3 : Word
  h4 : Word
  h5 : Word
  h6 : Word
  h7 : Word
deriving DecidableEq, Repr

/-- The working variables `a..h` of one compression (R28, R130). -/
structure Working where
  a : Word
  b : Word
  c : Word
  d : Word
  e : Word
  f : Word
  g : Word
  h : Word
deriving DecidableEq, Repr

end Sys2Proof
end

