-- ==== Sys2Proof/Syntax.lean ====
section
/-! DEFINITION. The unit's four commands (30_encoding.md R70-R73, one constructor per row of spec/opcode_table.json), the
names of the registers in its window (10_state.md R30), and what the host may do to it (20_memory.md R51,
70_reset_and_hazards.md R235). -/

namespace Sys2Proof

/-- A command (R72). `updateByte` carries the byte `OPD`; `updateDin` carries the field `N = w[2:0]` (R73), of which
only 0..4 are legal (`Instr.wellFormed`). -/
inductive Instr
  | init
  | updateByte (imm8 : Byte)
  | updateDin (n : BitVec 3)
  | finalize
deriving DecidableEq, Repr

/-- The sixteen word registers of the window (R30), in the order of their offsets. -/
inductive Reg
  | cmd
  | din
  | status
  | blockLen
  | bitLenLo
  | bitLenHi
  | reserved18
  | reserved1C
  | h (i : Fin 8)
deriving DecidableEq, Repr

/-- One move of the host (R235): a bus read or write of `n` bytes at byte offset `off` of the window (R51), or the
platform's reset (R230). `v` is the word on the 32 data lines (R53). -/
inductive HostMove
  | read (off n : Nat)
  | write (off n : Nat) (v : Word)
  | reset
deriving DecidableEq, Repr

/-- What the unit answers to one access (R51): `OK` to a write, `OK` with data to a read, or `BusError`. -/
inductive Response
  | ok
  | data (v : Word)
  | busError
deriving DecidableEq, Repr

end Sys2Proof
end

