-- ==== Sys2Proof/WellFormed.lean ====
section
/-! DEFINITION. Which commands have a legal encoding (30_encoding.md R72-R74). -/

namespace Sys2Proof

/-- A command is well formed when R72 gives it a word: `UPDATE_DIN` asks `N <= 4` (R74(e)); the other operands are
free. -/
def Instr.wellFormed : Instr → Bool
  | .init => true
  | .updateByte _ => true
  | .updateDin n => decide (n.toNat ≤ 4)
  | .finalize => true

end Sys2Proof
end

