-- ==== Sys2Proof/Decode.lean ====
section
/-! DEFINITION. Decoding of command words, total and rejecting by name (30_encoding.md R70, R74, R76), and the encoder
written from the same table (R72). -/

namespace Sys2Proof

/-- Why a word is illegal: the five cases of R74. The unit records the one code ILLEGAL_CMD for each (R202). -/
inductive Illegal
  | reservedBits
  | unknownOp
  | operandNotZero
  | operandHighBits
  | countTooLarge
deriving DecidableEq, Repr

/-- `OP = w[31:24]` (R70). -/
def fieldOP (w : Word) : BitVec 8 := w.extractLsb' 24 8

/-- `RSV = w[23:8]` (R70). -/
def fieldRSV (w : Word) : BitVec 16 := w.extractLsb' 8 16

/-- `OPD = w[7:0]` (R70). -/
def fieldOPD (w : Word) : BitVec 8 := w.extractLsb' 0 8

/-- `w[7:3]`, which UPDATE_DIN needs to be 0 (R73). -/
def fieldOPDHigh (w : Word) : BitVec 5 := w.extractLsb' 3 5

/-- `N = w[2:0]` (R73). -/
def fieldN (w : Word) : BitVec 3 := w.extractLsb' 0 3

/-- The decode procedure of R76, its checks in its order. -/
def decode (w : Word) : Except Illegal Instr :=
  if fieldRSV w ≠ 0 then .error .reservedBits
  else if fieldOP w = 0x01 then
    if fieldOPD w ≠ 0 then .error .operandNotZero else .ok .init
  else if fieldOP w = 0x02 then .ok (.updateByte (fieldOPD w))
  else if fieldOP w = 0x03 then
    if fieldOPDHigh w ≠ 0 then .error .operandHighBits
    else if 4 < (fieldN w).toNat then .error .countTooLarge
    else .ok (.updateDin (fieldN w))
  else if fieldOP w = 0x04 then
    if fieldOPD w ≠ 0 then .error .operandNotZero else .ok .finalize
  else .error .unknownOp

/-- The word of a command (R72): OP, sixteen zero bits, OPD. -/
def encode : Instr → Word
  | .init => 0x01#8 ++ 0#16 ++ 0#8
  | .updateByte b => 0x02#8 ++ 0#16 ++ b
  | .updateDin n => 0x03#8 ++ 0#16 ++ 0#5 ++ n
  | .finalize => 0x04#8 ++ 0#16 ++ 0#8

/-- The 32-bit command word whose low `nbits` bits are those of `w` and whose other bits are 0; none where `w` needs
more than the one word a command has (R71). -/
def tableWord (nbits w : Nat) : Option Word :=
  if w % 2 ^ nbits < 2 ^ 32 then some (BitVec.ofNat 32 (w % 2 ^ nbits)) else none

/-- The instruction the decoder reads from a row of the opcode table. -/
def decodeTableWord (nbits w : Nat) : Option Instr :=
  match tableWord nbits w with
  | none => none
  | some v =>
    match decode v with
    | .ok i => some i
    | .error _ => none

end Sys2Proof
end

