-- ==== Sys2Proof/Config.lean ====
section
/-! DEFINITION. What the platform or an implementation fixes (00_scope.md R6, 92_eei_decisions.md OPEN parameters) and the
free values: the values no rule fixes (R13). Each is a constant with no body, so that nothing proved can rest on what
it is. -/

namespace Sys2Proof

/-- What the host does after a `BusError` response (R6 `HOST_BUSERR`): it faults and issues nothing more, or it goes on
with its next access. -/
inductive HostBusErr
  | faults
  | goesOn
deriving DecidableEq, Repr, Inhabited

/-- `BASE`: the platform's address of the unit's window (R6, R51). -/
opaque Config.base : Nat

/-- `HOST_BUSERR` (R6). -/
opaque Config.hostBusErr : HostBusErr

/-- FREE VALUE (R13, R42). What `Buf[index]` holds at draw `draw`, while nothing has written it since reset, INIT or the last
compression. -/
opaque Config.unwrittenByte (draw index : Nat) : Byte

/-- FREE VALUE (R13, R28). Word `slot` of the compression's internal registers between commands, at draw `draw`:
slots 0 to 7 are the working variables, 8 to 23 the schedule window. -/
opaque Config.freeWord (draw slot : Nat) : Word

/-- FREE VALUE (R13, R28). The round index between commands, which the spec bounds by 0..64. -/
opaque Config.freeRound (draw : Nat) : Fin 65

/-- `LAT_INIT`, a positive number of clock cycles (R6, R238). -/
opaque Config.latInit : ℕ+

/-- `LAT_ABSORB` (R6, R238). -/
opaque Config.latAbsorb : ℕ+

/-- `LAT_COMPRESS` (R6, R238). -/
opaque Config.latCompress : ℕ+

/-- `LAT_FINALIZE` (R6, R238). -/
opaque Config.latFinalize : ℕ+

/-- `LAT_REJECT` (R6, R238). -/
opaque Config.latReject : ℕ+

/-- The working variables at draw `draw`: eight free words. -/
def Config.freeWorking (draw : Nat) : Working :=
  let w := Config.freeWord draw
  ⟨w 0, w 1, w 2, w 3, w 4, w 5, w 6, w 7⟩

/-- The schedule window at draw `draw`: sixteen free words. -/
def Config.freeWindow (draw : Nat) : Vector Word 16 :=
  let w := Config.freeWord draw
  #v[w 8, w 9, w 10, w 11, w 12, w 13, w 14, w 15, w 16, w 17, w 18, w 19, w 20, w 21, w 22, w 23]

end Sys2Proof
end

