-- ==== Sys2Proof/Machine/Constants.lean ====
section
/-! DEFINITION. The two read-only tables (10_state.md R27): the initial state `IV` (41_compression.md R120) and the round
constants `K` (R121). -/

namespace Sys2Proof.Machine

/-- `IV[0..7]` (R120). -/
def iv : Chain where
  h0 := 0x6a09e667
  h1 := 0xbb67ae85
  h2 := 0x3c6ef372
  h3 := 0xa54ff53a
  h4 := 0x510e527f
  h5 := 0x9b05688c
  h6 := 0x1f83d9ab
  h7 := 0x5be0cd19

/-- Row 0 of R121's table: `K[0..7]`. -/
def kRow0 : List Word :=
  [0x428a2f98, 0x71374491, 0xb5c0fbcf, 0xe9b5dba5, 0x3956c25b, 0x59f111f1, 0x923f82a4, 0xab1c5ed5]

/-- Row 8 of R121's table: `K[8..15]`. -/
def kRow8 : List Word :=
  [0xd807aa98, 0x12835b01, 0x243185be, 0x550c7dc3, 0x72be5d74, 0x80deb1fe, 0x9bdc06a7, 0xc19bf174]

/-- Row 16 of R121's table: `K[16..23]`. -/
def kRow16 : List Word :=
  [0xe49b69c1, 0xefbe4786, 0x0fc19dc6, 0x240ca1cc, 0x2de92c6f, 0x4a7484aa, 0x5cb0a9dc, 0x76f988da]

/-- Row 24 of R121's table: `K[24..31]`. -/
def kRow24 : List Word :=
  [0x983e5152, 0xa831c66d, 0xb00327c8, 0xbf597fc7, 0xc6e00bf3, 0xd5a79147, 0x06ca6351, 0x14292967]

/-- Row 32 of R121's table: `K[32..39]`. -/
def kRow32 : List Word :=
  [0x27b70a85, 0x2e1b2138, 0x4d2c6dfc, 0x53380d13, 0x650a7354, 0x766a0abb, 0x81c2c92e, 0x92722c85]

/-- Row 40 of R121's table: `K[40..47]`. -/
def kRow40 : List Word :=
  [0xa2bfe8a1, 0xa81a664b, 0xc24b8b70, 0xc76c51a3, 0xd192e819, 0xd6990624, 0xf40e3585, 0x106aa070]

/-- Row 48 of R121's table: `K[48..55]`. -/
def kRow48 : List Word :=
  [0x19a4c116, 0x1e376c08, 0x2748774c, 0x34b0bcb5, 0x391c0cb3, 0x4ed8aa4a, 0x5b9cca4f, 0x682e6ff3]

/-- Row 56 of R121's table: `K[56..63]`. -/
def kRow56 : List Word :=
  [0x748f82ee, 0x78a5636f, 0x84c87814, 0x8cc70208, 0x90befffa, 0xa4506ceb, 0xbef9a3f7, 0xc67178f2]

/-- `K[0..63]`: the rows of R121's table, one behind the other. -/
def roundConstants : List Word :=
  kRow0 ++ kRow8 ++ kRow16 ++ kRow24 ++ kRow32 ++ kRow40 ++ kRow48 ++ kRow56

/-- `K[t]`, for t in 0..63 (no rule reads it elsewhere). -/
def roundConstant (t : Nat) : Word := roundConstants.getD t 0

end Sys2Proof.Machine
end

