-- ==== Sys2Proof/Machine/State.lean ====
section
/-! DEFINITION. The machine's state as plain data, its faults and refusals, and the state right after reset
(10_state.md R20-R29, R40; 60_exceptions.md R201, R218; 70_reset_and_hazards.md R235, R240). -/

namespace Sys2Proof.Machine

/-- What can stop the machine with a fault. -/
inductive Fault
  /-- Raised by UPDATE_BYTE, UPDATE_DIN, FINALIZE and the sequencer's phases that write `Buf` at `block_len`, when
  `block_len` is 64 or more at that point: `Buf` has no such index (R21, R66). R41(a) excludes it between commands.
  SAFE: a stop where the spec describes no behaviour. -/
  | bufferIndex
deriving DecidableEq, Repr

/-- What the model gives no meaning. -/
inductive Refusal
  /-- Raised by `exec`'s arms for an instruction without a meaning: none is left. SAFE. -/
  | notModelled (mnemonic : String)
  /-- Raised by a host access at an offset of 64 or more: the platform does not select the unit for it, and what it
  does is the platform's concern (R51; 93: refuse). SAFE. -/
  | outsideWindow
deriving DecidableEq, Repr

/-- The error codes a rejection records (R201); code 0, NONE, is no rejection. -/
inductive ErrCode
  | illegalCmd
  | contextMisuse
  | lengthExceeded
deriving DecidableEq, Repr

/-- An entry of the model's own fault record: a rejection with its code, or a bus error (R218). -/
inductive Recorded
  | rejected (code : ErrCode)
  | busError
deriving DecidableEq, Repr

/-- `Buf` (R21): the bytes written since reset, INIT and the last compression, each with its index, indices strictly rising.
An index that is not listed holds no byte that a rule fixes (R13, R42). -/
abbrev Memory := List Host.Cell

/-- Where the sequencer goes on after a compression (R240). -/
inductive Return
  /-- back to ABSORB with these bytes left (R100) -/
  | absorb (rest : List Byte)
  /-- to ZEROFRESH (R152) -/
  | zeroFresh
  /-- to DONE (R150) -/
  | done
deriving DecidableEq, Repr

/-- The phases inside COMPRESS (R240); ROUND(i) takes `i` from the round index. -/
inductive CompressPhase
  | load
  | round
  | add
deriving DecidableEq, Repr

/-- The sequencer's phases (R240). -/
inductive Phase
  | idle
  | decode (w : Word)
  | reject (code : ErrCode)
  | setIV
  | absorb (bytes : List Byte)
  | pad80
  | zero56
  | zero64
  | zeroFresh
  | lenField
  | done
  | compress (p : CompressPhase) (ret : Return)
deriving DecidableEq, Repr

/-- Everything the spec gives the machine. The model's own counters stand first: a definitional check of two states that
differ by a compression then fails on the counter at once, before it would unfold the 64 rounds. -/
structure State where
  /-- MODEL'S OWN: the draw the next compression leaves in the internal registers (R13, R28) -/
  draws : Nat
  /-- MODEL'S OWN: the draw that bytes of `Buf` no rule fixes are read from (R13, R42) -/
  bufDraw : Nat
  /-- `H[0..7]` (R20) -/
  h : Chain
  /-- `Buf[0..63]` (R21) -/
  buf : Memory
  /-- `block_len` (R22) -/
  blockLen : BitVec 7
  /-- `bit_len` (R23) -/
  bitLen : BitVec 64
  /-- `FINALIZED` (R24) -/
  finalized : Bool
  /-- `ERR` (R25) -/
  err : Bool
  /-- `ERRCODE` (R25) -/
  errCode : BitVec 4
  /-- `DIN` (R26) -/
  din : Word
  /-- the working variables `a..h` (R28) -/
  work : Working
  /-- the schedule's 16-word window (R28, R239) -/
  window : Vector Word 16
  /-- the round index (R28) -/
  round : Fin 65
  /-- the sequencer phase (R28, R240) -/
  phase : Phase
  /-- the host's moves not yet served, the next one first (R235, R236) -/
  host : List HostMove
  /-- the responses given so far, the latest last (R51, R236) -/
  responses : List Response
  /-- the model's fault record, the latest entry last; nothing clears it (R218) -/
  record : List Recorded
deriving DecidableEq, Repr

/-- The machine right after power-up reset (R40, R230): nothing pending, nothing answered, nothing recorded. -/
def State.reset : State where
  h := iv
  buf := []
  blockLen := 0
  bitLen := 0
  finalized := false
  err := false
  errCode := 0
  din := 0
  work := Config.freeWorking 0
  window := Config.freeWindow 0
  round := Config.freeRound 0
  phase := .idle
  host := []
  responses := []
  record := []
  draws := 1
  bufDraw := 0

end Sys2Proof.Machine
end

