-- ==== Sys2Proof/Machine/Operands.lean ====
section
/-! DEFINITION. Byte and word conversions (00_scope.md R11, 20_memory.md R55) and the operand forms of the commands
(30_encoding.md R73). -/

namespace Sys2Proof.Machine

/-- `BE32(b0, b1, b2, b3)`: the word whose most significant byte is the first byte (R11). -/
def be32 (b0 b1 b2 b3 : Byte) : Word := b0 ++ b1 ++ b2 ++ b3

/-- Byte `j` of a word, most significant first: bits `[31-8j : 24-8j]` (R11, R103, R156). -/
def wordByte (w : Word) (j : Nat) : Byte := w.extractLsb' (24 - 8 * j) 8

/-- `BE32inv(w)`: the four bytes of a word, most significant first (R11). -/
def be32inv (w : Word) : List Byte := [wordByte w 0, wordByte w 1, wordByte w 2, wordByte w 3]

/-- Byte `j` of a 64-bit value, most significant first: bits `[63-8j : 56-8j]` (R11, R150). -/
def longByte (v : BitVec 64) (j : Nat) : Byte := v.extractLsb' (56 - 8 * j) 8

/-- `BE64inv(v)`: the eight bytes of a 64-bit value, most significant first (R11). -/
def be64inv (v : BitVec 64) : List Byte :=
  [longByte v 0, longByte v 1, longByte v 2, longByte v 3, longByte v 4, longByte v 5, longByte v 6, longByte v 7]

/-- The bytes `UPDATE_DIN N` absorbs: the first `N` of `BE32inv(DIN)`, `DIN[31:24]` first (R73, R103). -/
def dinBytes (din : Word) (n : BitVec 3) : List Byte := (be32inv din).take n.toNat

/-- `H[i]` (R12). -/
def chainWord (h : Chain) (i : Fin 8) : Word :=
  match i with
  | 0 => h.h0
  | 1 => h.h1
  | 2 => h.h2
  | 3 => h.h3
  | 4 => h.h4
  | 5 => h.h5
  | 6 => h.h6
  | 7 => h.h7

end Sys2Proof.Machine
end

