-- ==== Sys2Proof/Machine/Compression.lean ====
section
/-! DEFINITION. The compression function: bit functions, message schedule, rounds and final addition
(41_compression.md R122-R133), with the rotations of 00_scope.md R10. All additions are modulo 2^32 (R8, R136). -/

namespace Sys2Proof.Machine

/-- `rotr(x, n)`, for 0 < n < 32 (R10). -/
def rotr (x : Word) (n : Nat) : Word := (x >>> n) ||| (x <<< (32 - n))

/-- σ0 (R122). -/
def smallSigma0 (x : Word) : Word := rotr x 7 ^^^ rotr x 18 ^^^ (x >>> 3)

/-- σ1 (R123). -/
def smallSigma1 (x : Word) : Word := rotr x 17 ^^^ rotr x 19 ^^^ (x >>> 10)

/-- Σ0 (R124). -/
def bigSigma0 (x : Word) : Word := rotr x 2 ^^^ rotr x 13 ^^^ rotr x 22

/-- Σ1 (R125). -/
def bigSigma1 (x : Word) : Word := rotr x 6 ^^^ rotr x 11 ^^^ rotr x 25

/-- Ch (R126). -/
def choose (e f g : Word) : Word := (e &&& f) ^^^ (~~~e &&& g)

/-- Maj (R127). -/
def majority (a b c : Word) : Word := (a &&& (b ||| c)) ||| (b &&& c)

/-- Schedule word `t` of a block, for t in 0..15: `BE32(B[4t], …, B[4t+3])` (R128). -/
def blockWord (block : List Byte) (t : Nat) : Word :=
  be32 (block.getD (4 * t) 0) (block.getD (4 * t + 1) 0) (block.getD (4 * t + 2) 0) (block.getD (4 * t + 3) 0)

/-- The message split `m[0..16)` (R128). -/
def split (block : List Byte) : List Word := (List.range 16).map (blockWord block)

/-- `σ1(m2) + m7 + σ0(m15) + m16`, where `mj` is the schedule word `j` places back (R129). -/
def scheduleWord (m2 m7 m15 m16 : Word) : Word := smallSigma1 m2 + m7 + smallSigma0 m15 + m16

/-- One step of the schedule's expansion: `m[k]` put behind `m[0..k)` (R129). -/
def expandStep (m : List Word) : List Word :=
  let k := m.length
  m ++ [scheduleWord (m.getD (k - 2) 0) (m.getD (k - 7) 0) (m.getD (k - 15) 0) (m.getD (k - 16) 0)]

/-- `n` steps of the expansion. -/
def expand : Nat → List Word → List Word
  | 0, m => m
  | n + 1, m => expand n (expandStep m)

/-- The schedule `m[0..63]` of a block (R128, R129). -/
def schedule (block : List Byte) : List Word := expand 48 (split block)

/-- The working variables loaded from the state (R130). -/
def loadWorking (h : Chain) : Working := ⟨h.h0, h.h1, h.h2, h.h3, h.h4, h.h5, h.h6, h.h7⟩

/-- One round, with schedule word `m` and constant `k` (R131). -/
def shaRound (m k : Word) (v : Working) : Working :=
  let maj := majority v.a v.b v.c
  let s0 := bigSigma0 v.a
  let ch := choose v.e v.f v.g
  let s1 := bigSigma1 v.e
  let sum := m + k + v.h + ch + s1
  let newA := s0 + maj + sum
  let newE := v.d + sum
  ⟨newA, v.a, v.b, v.c, newE, v.e, v.f, v.g⟩

/-- The rounds over a list of pairs of schedule word and constant, in order (R131). -/
def rounds : List (Word × Word) → Working → Working
  | [], v => v
  | (m, k) :: rest, v => rounds rest (shaRound m k v)

/-- The final addition, element by element (R132). -/
def addWorking (h : Chain) (v : Working) : Chain :=
  ⟨h.h0 + v.a, h.h1 + v.b, h.h2 + v.c, h.h3 + v.d, h.h4 + v.e, h.h5 + v.f, h.h6 + v.g, h.h7 + v.h⟩

/-- `Compress(H, B)` (R133). Irreducible, so that no definitional check unfolds 64 rounds; unfold it by its equation. -/
@[irreducible] def compress (h : Chain) (block : List Byte) : Chain :=
  addWorking h (rounds ((schedule block).zip roundConstants) (loadWorking h))

end Sys2Proof.Machine
end

