-- ==== Sys2Proof/Machine/Flags.lean ====
section
/-! DEFINITION. The status flags: the error codes' numbers (60_exceptions.md R201), the STATUS word (10_state.md R33) and
the length guard (40_context.md R104). The unit has no arithmetic flags (R136). -/

namespace Sys2Proof.Machine

/-- The number of an error code (R201). -/
def errCodeBits : ErrCode → BitVec 4
  | .illegalCmd => 1
  | .contextMisuse => 2
  | .lengthExceeded => 3

/-- `STATUS = zext_32({ERRCODE, 0b00, ERR, FINALIZED})` (R33). -/
def statusWord (s : State) : Word :=
  0#24 ++ s.errCode ++ 0#2 ++ BitVec.ofBool s.err ++ BitVec.ofBool s.finalized

/-- `bit_len + 8 * (block_len + n)` as an unbounded natural (R104): the message's bits with `n` bytes more. -/
def bitsWith (s : State) (n : Nat) : Nat := s.bitLen.toNat + 8 * (s.blockLen.toNat + n)

/-- `LengthOK(n)` (R104). -/
def lengthOK (s : State) (n : Nat) : Bool := decide (bitsWith s n < 2 ^ 64)

end Sys2Proof.Machine
end

