-- ==== Sys2Proof/Machine/Ops.lean ====
section
/-! DEFINITION. The named operations over the state: reading and writing `Buf` (10_state.md R21, 20_memory.md R66),
compressing it (41_compression.md R133, R134), rejecting a command and answering a bus error (60_exceptions.md R200,
R206, R218), and reset (70_reset_and_hazards.md R230). -/

namespace Sys2Proof.Machine

/-- The byte written at index `i`, if one has been. -/
def Memory.lookup (m : Memory) (i : Nat) : Option Byte :=
  match m with
  | [] => none
  | (k, v) :: rest => if k = i then some v else Memory.lookup rest i

/-- `Buf[i] <- x` on the list of cells, which stays in rising order. -/
def Memory.write (m : Memory) (i : Nat) (x : Byte) : Memory :=
  match m with
  | [] => [(i, x)]
  | (k, v) :: rest =>
    if i < k then (i, x) :: (k, v) :: rest
    else if i = k then (i, x) :: rest
    else (k, v) :: Memory.write rest i x

/-- `Buf[i], Buf[i+1], … <- xs`. -/
def Memory.writeList (m : Memory) (i : Nat) : List Byte → Memory
  | [] => m
  | x :: xs => Memory.writeList (m.write i x) (i + 1) xs

/-- Every index of the list is at least `lo`, they rise strictly, and all are below 64. -/
def Memory.wfFrom (lo : Nat) : Memory → Bool
  | [] => true
  | (k, _) :: rest => decide (lo ≤ k) && decide (k < 64) && Memory.wfFrom (k + 1) rest

/-- The one canonical form of `Buf`: indices strictly rising, each in 0..63 (R21). -/
def Memory.wf (m : Memory) : Bool := Memory.wfFrom 0 m

/-- The model's read of one byte of `Buf`: the byte written there, or a free value where none has been (R13, R42). -/
def State.readBuf (s : State) (i : Nat) : Byte :=
  (s.buf.lookup i).getD (Config.unwrittenByte s.bufDraw i)

/-- `Buf[0..63]`, the block a compression reads (R128). -/
def State.block (s : State) : List Byte := (List.range 64).map s.readBuf

/-- `Buf[i], Buf[i+1], … <- xs`. -/
def State.writeBuf (s : State) (i : Nat) (xs : List Byte) : State :=
  { s with buf := s.buf.writeList i xs }

/-- DESIGN CHOICE (log 14), safe. From here on the content of `Buf` is unspecified (R13, R21, R42; 92 D28; 93 section 1):
no index holds a written byte, and each reads as a free value, drawn anew if a byte had been written. -/
def State.forgetBuf (s : State) : State :=
  { s with buf := [], bufDraw := s.bufDraw + s.buf.length }

/-- What a compression leaves behind, beside `H`. DESIGN CHOICE (log 3, log 14), safe: the working variables, window and
round index are at free values, since none of them survives the command (R28), and the bytes of `Buf` are stale (R42). -/
def State.endCompression (s : State) : State :=
  { s with
    buf := s.forgetBuf.buf
    bufDraw := s.forgetBuf.bufDraw
    work := Config.freeWorking s.draws
    window := Config.freeWindow s.draws
    round := Config.freeRound s.draws
    draws := s.draws + 1 }

/-- `H <- Compress(H, Buf[0..63])` (R133). -/
def State.compressBuf (s : State) : State := { s.endCompression with h := compress s.h s.block }

/-- `raise CmdError(code)`: the rejection of a command (R200), also put in the model's record (R218). -/
def State.reject (s : State) (code : ErrCode) : State :=
  { s with
    err := true
    errCode := errCodeBits code
    record := s.record ++ [.rejected code] }

/-- The response to a bus access (R51). -/
def State.respond (s : State) (r : Response) : State :=
  { s with responses := s.responses ++ [r] }

/-- What is left of the host's moves after a `BusError` response (R6 `HOST_BUSERR`). -/
def movesAfterBusError (moves : List HostMove) : List HostMove :=
  match Config.hostBusErr with
  | .faults => []
  | .goesOn => moves

/-- `raise BusError`: the error response, put in the model's record; the unit's own state stays (R206, R218), and
the host does what `HOST_BUSERR` says (R6). -/
def State.takeBusError (s : State) : State :=
  { s with
    responses := s.responses ++ [.busError]
    record := s.record ++ [.busError]
    host := movesAfterBusError s.host }

/-- Reset of a running machine (R230): every piece of the unit's state goes to its value of R40, the unspecified ones to
fresh free values, whatever the sequencer was doing. The model's record is kept (R218), as are the host's moves and
the responses it already has. -/
def State.platformReset (s : State) : State :=
  { State.reset with
    work := Config.freeWorking s.draws
    window := Config.freeWindow s.draws
    round := Config.freeRound s.draws
    host := s.host
    responses := s.responses
    record := s.record
    draws := s.draws + 1
    bufDraw := s.bufDraw + 1 }

end Sys2Proof.Machine
end

