-- ==== Sys2Proof/Machine/Context.lean ====
section
/-! DEFINITION. The hash context commands INIT, UPDATE_BYTE and UPDATE_DIN and the per-byte step `Absorb`
(40_context.md R100-R104). -/

namespace Sys2Proof.Machine

/-- The writes of INIT (R101); `Buf` and `DIN` are not written, and what `Buf` holds is unspecified from here on (93
section 1, log 14). -/
def State.initContext (s : State) : State :=
  { s.forgetBuf with h := iv, blockLen := 0, bitLen := 0, finalized := false, err := false, errCode := 0 }

/-- `Buf[block_len] <- x; block_len <- block_len + 1` (R100). -/
def State.appendByte (s : State) (x : Byte) : State :=
  { s with buf := s.buf.write s.blockLen.toNat x, blockLen := s.blockLen + 1 }

/-- What follows the compression of a full block: `bit_len <- (bit_len + 512) mod 2^64; block_len <- 0` (R100). -/
def State.countBlock (s : State) : State :=
  { s with bitLen := s.bitLen + 512, blockLen := 0 }

/-- A full block is compressed and counted (R100). -/
def State.closeIfFull (s : State) : State :=
  if s.blockLen = 64 then s.compressBuf.countBlock else s

/-- `Absorb(x)` (R100), whose precondition is `block_len <= 63`. -/
def absorb (x : Byte) (s : State) : Host.Outcome State Fault Refusal :=
  if s.blockLen.toNat < 64 then .next (s.appendByte x).closeIfFull else .fault .bufferIndex

/-- `Absorb` of each byte of a list, in order (R103). -/
def absorbAll (xs : List Byte) (s : State) : Host.Outcome State Fault Refusal :=
  match xs with
  | [] => .next s
  | x :: rest =>
    match absorb x s with
    | .next t => absorbAll rest t
    | .fault r => .fault r
    | .refused r => .refused r

/-- The lifecycle and length checks of the UPDATE commands, in their order (R102, R103, R207), then `Absorb` of the
bytes: the check covers them all before any is absorbed. -/
def update (xs : List Byte) (s : State) : Host.Outcome State Fault Refusal :=
  if s.finalized then .next (s.reject .contextMisuse)
  else if lengthOK s xs.length then absorbAll xs s
  else .next (s.reject .lengthExceeded)

/-- INIT (R101). -/
def execInit (s : State) : Host.Outcome State Fault Refusal :=
  .next s.initContext

/-- UPDATE_BYTE (R102). -/
def execUpdateByte (imm8 : Byte) (s : State) : Host.Outcome State Fault Refusal :=
  update [imm8] s

/-- UPDATE_DIN (R103). A count above 4 has no word but illegal ones (R74(e)), and is rejected as such. -/
def execUpdateDin (n : BitVec 3) (s : State) : Host.Outcome State Fault Refusal :=
  if 4 < n.toNat then .next (s.reject .illegalCmd) else update (dinBytes s.din n) s

end Sys2Proof.Machine
end

