-- ==== Sys2Proof/Machine/Finalize.lean ====
section
/-! DEFINITION. FINALIZE: padding, length field, last compressions (42_finalize.md R150-R155), and the digest (R156). -/

namespace Sys2Proof.Machine

/-- `Buf[n0] <- 0x80`, where `n0 = block_len` (R150). -/
def State.mark80 (s : State) : State := s.writeBuf s.blockLen.toNat [0x80]

/-- Zeros into `Buf[a..b)`. -/
def State.zeroBuf (s : State) (a b : Nat) : State := s.writeBuf a (List.replicate (b - a) 0x00)

/-- `PadRoom(n0)` (R151). -/
def State.padRoom (s : State) : State := s.zeroBuf (s.blockLen.toNat + 1) 56

/-- `PadNoRoom(n0)` (R152): zeros to the end, one compression that `bit_len` does not count (R154), and a fresh
56-byte zero region. -/
def State.padNoRoom (s : State) : State :=
  ((s.zeroBuf (s.blockLen.toNat + 1) 64).compressBuf).zeroBuf 0 56

/-- `L = bit_len + 8 * n0`, as the 64 bits the length field holds (R150, R153). -/
def State.messageBits (s : State) : BitVec 64 :=
  s.bitLen + BitVec.ofNat 64 (8 * s.blockLen.toNat)

/-- `Buf[56..63] <- BE64inv(L)` (R150, R153). -/
def State.writeLength (s : State) : State := s.writeBuf 56 (be64inv s.messageBits)

/-- `bit_len <- L; block_len <- 0; FINALIZED <- 1` (R155). `Buf` is stale since the compression before (R42). -/
def State.seal (s : State) : State :=
  { s with bitLen := s.messageBits, blockLen := 0, finalized := true }

/-- The padding of R150, its branch chosen by `n0`. -/
def State.pad (s : State) : State :=
  if s.blockLen.toNat < 56 then s.mark80.padRoom else s.mark80.padNoRoom

/-- FINALIZE (R150). -/
def execFinalize (s : State) : Host.Outcome State Fault Refusal :=
  if s.finalized then .next (s.reject .contextMisuse)
  else if s.blockLen.toNat < 64 then .next s.pad.writeLength.compressBuf.seal
  else .fault .bufferIndex

/-- The digest: the eight words, each most significant byte first (R156). -/
def digest (h : Chain) : List Byte :=
  be32inv h.h0 ++ be32inv h.h1 ++ be32inv h.h2 ++ be32inv h.h3 ++
  be32inv h.h4 ++ be32inv h.h5 ++ be32inv h.h6 ++ be32inv h.h7

end Sys2Proof.Machine
end

