-- ==== Sys2Proof/Machine/Dispatch.lean ====
section
/-! DEFINITION. One arm per command, each a direct call of its meaning. -/

namespace Sys2Proof.Machine

def exec (i : Instr) (s : State) : Host.Outcome State Fault Refusal :=
  match i with
  | .init => Sys2Proof.Machine.execInit s
  | .updateByte imm8 => Sys2Proof.Machine.execUpdateByte imm8 s
  | .updateDin n => Sys2Proof.Machine.execUpdateDin n s
  | .finalize => Sys2Proof.Machine.execFinalize s

end Sys2Proof.Machine
end

