-- ==== Sys2Proof/Machine/Bus.lean ====
section
/-! DEFINITION. The host's side of the unit: the register window (10_state.md R30-R39), access width and alignment
(20_memory.md R51-R53), the execution of a command word (30_encoding.md R76) and the service of one host move
(70_reset_and_hazards.md R235). -/

namespace Sys2Proof.Machine

/-- The offset the platform's address selects, if it selects the unit at all: `BASE .. BASE + 0x3F` (R51). -/
def windowOffset (addr : Nat) : Option Nat :=
  if Config.base ≤ addr ∧ addr < Config.base + 64 then some (addr - Config.base) else none

/-- The offset of a register (R30). -/
def regOffset : Reg → Nat
  | .cmd => 0x00
  | .din => 0x04
  | .status => 0x08
  | .blockLen => 0x0C
  | .bitLenLo => 0x10
  | .bitLenHi => 0x14
  | .reserved18 => 0x18
  | .reserved1C => 0x1C
  | .h i => 0x20 + 4 * i.val

/-- The register at an aligned offset of the window (R30). -/
def regAt (off : Nat) : Reg :=
  match off / 4 with
  | 0 => .cmd
  | 1 => .din
  | 2 => .status
  | 3 => .blockLen
  | 4 => .bitLenLo
  | 5 => .bitLenHi
  | 6 => .reserved18
  | 7 => .reserved1C
  | k + 8 => .h (Fin.ofNat 8 k)

/-- What an access of `n` bytes at offset `off` reaches. -/
inductive Target
  | outside
  | busError
  | reg (r : Reg)
deriving DecidableEq, Repr

/-- Selection, then width and alignment (R51, R52). -/
def target (off n : Nat) : Target :=
  if 64 ≤ off then .outside
  else if n ≠ 4 ∨ off % 4 ≠ 0 then .busError
  else .reg (regAt off)

/-- What a 32-bit read of a register returns; no read has a side effect (R31-R38, R58). -/
def readReg (s : State) : Reg → Word
  | .cmd => 0
  | .din => s.din
  | .status => statusWord s
  | .blockLen => (s.blockLen.extractLsb' 0 6).setWidth 32
  | .bitLenLo => s.bitLen.extractLsb' 0 32
  | .bitLenHi => s.bitLen.extractLsb' 32 32
  | .reserved18 => 0
  | .reserved1C => 0
  | .h i => chainWord s.h i

/-- `execute(w)` (R76): an illegal word is rejected with ILLEGAL_CMD (R202), a legal one runs. -/
def executeWord (w : Word) (s : State) : Host.Outcome State Fault Refusal :=
  match decode w with
  | .error _ => .next (s.reject .illegalCmd)
  | .ok i => exec i s

/-- The access answers `OK` once its command has completed (R59). -/
def answerOk (o : Host.Outcome State Fault Refusal) : Host.Outcome State Fault Refusal :=
  match o with
  | .next t => .next (t.respond .ok)
  | .fault r => .fault r
  | .refused r => .refused r

/-- A 32-bit write of a register: CMD executes the word, DIN takes it, every other register ignores it (R31, R32, R38,
R39). -/
def writeReg (r : Reg) (v : Word) (s : State) : Host.Outcome State Fault Refusal :=
  match r with
  | .cmd => executeWord v s
  | .din => .next { s with din := v }
  | .status => .next s
  | .blockLen => .next s
  | .bitLenLo => .next s
  | .bitLenHi => .next s
  | .reserved18 => .next s
  | .reserved1C => .next s
  | .h _ => .next s

/-- One host move served completely, from and to IDLE (R52, R59, R60, R235). -/
def serve (m : HostMove) (s : State) : Host.Outcome State Fault Refusal :=
  match m with
  | .reset => .next s.platformReset
  | .read off n =>
    match target off n with
    | .outside => .refused .outsideWindow
    | .busError => .next s.takeBusError
    | .reg r => .next (s.respond (.data (readReg s r)))
  | .write off n v =>
    match target off n with
    | .outside => .refused .outsideWindow
    | .busError => .next s.takeBusError
    | .reg r => answerOk (writeReg r v s)

/-- Whether a move gets the `BusError` response (R52). -/
def isBusError : HostMove → Bool
  | .reset => false
  | .read off n => decide (target off n = .busError)
  | .write off n _ => decide (target off n = .busError)

/-- Whether the host goes on with its next access once move `m` is answered: always, but after a `BusError` response only
as `HOST_BUSERR` says (R6, R206; log 7). -/
def hostGoesOn (m : HostMove) : Bool := !isBusError m || decide (Config.hostBusErr = .goesOn)

/-- The next move of the host, taken from the front of its moves and served; with none pending the unit is idle and
keeps its state (R60, R217). -/
def serveNext (s : State) : Host.Outcome State Fault Refusal :=
  match s.host with
  | [] => .next s
  | m :: rest => serve m { s with host := rest }

/-- The state with a CMD write of `w` as the host's next move and the sequencer IDLE. -/
def State.withCommand (s : State) (w : Word) : State :=
  { s with host := .write 0x00 4 w :: s.host, phase := .idle }

end Sys2Proof.Machine
end

