-- ==== Sys2Proof/Machine/Sequencer.lean ====
section
/-! DEFINITION. The reference datapath and sequencer (70_reset_and_hazards.md R239, R240): one phase of a command at a time,
on the working variables, the 16-word window and the round index that State holds. The commands' own meanings do not
use it; that it ends where they end is a statement. -/

namespace Sys2Proof.Machine

/-- The sequencer goes to `p`. -/
def State.goto (s : State) (p : Phase) : State := { s with phase := p }

/-- The command is complete: IDLE, and the CMD write's response is given (R240). -/
def State.toIdle (s : State) : State := (s.goto .idle).respond .ok

/-- ABSORB with bytes left, or IDLE (R240). -/
def State.absorbNext (s : State) (rest : List Byte) : State :=
  match rest with
  | [] => s.toIdle
  | x :: xs => s.goto (.absorb (x :: xs))

/-- DECODE of an UPDATE that absorbs `xs`: the lifecycle and length guards (R102, R103, R240). DESIGN CHOICE (log 4), safe:
with no byte to absorb (UPDATE_DIN 0) the sequencer passes through one ABSORB phase that writes nothing. -/
def State.decodeUpdate (s : State) (xs : List Byte) : State :=
  if s.finalized then s.goto (.reject .contextMisuse)
  else if lengthOK s xs.length then s.goto (.absorb xs)
  else s.goto (.reject .lengthExceeded)

/-- DECODE (R76, R240). -/
def State.decodePhase (s : State) (w : Word) : State :=
  match decode w with
  | .error _ => s.goto (.reject .illegalCmd)
  | .ok .init => s.goto .setIV
  | .ok (.updateByte b) => s.decodeUpdate [b]
  | .ok (.updateDin n) => s.decodeUpdate (dinBytes s.din n)
  | .ok .finalize => if s.finalized then s.goto (.reject .contextMisuse) else s.goto .pad80

/-- ABSORB of the next byte (R100, R240); with none left, only the way to IDLE (log 4). -/
def State.absorbPhase (s : State) (bytes : List Byte) : State :=
  match bytes with
  | [] => s.toIdle
  | x :: rest =>
    let t := s.appendByte x
    if t.blockLen = 64 then t.goto (.compress .load (.absorb rest)) else t.absorbNext rest

/-- Schedule word `i` as the 16-word window gives it (R239(1)): from `Buf` for rounds 0..15, from the window after. -/
def State.windowWord (s : State) (i : Nat) : Word :=
  let w := fun k => s.window[k % 16]'(Nat.mod_lt k (by decide))
  if i < 16 then blockWord s.block i
  else scheduleWord (w (i - 2)) (w (i - 7)) (w (i - 15)) (w i)

/-- LOAD (R130). -/
def State.loadPhase (s : State) (ret : Return) : State :=
  { s with work := loadWorking s.h, round := 0, phase := .compress .round ret }

/-- ROUND(i), with `i` the round index (R131, R239); after ROUND(63) comes ADD. -/
def State.roundPhase (s : State) (ret : Return) : State :=
  let i := s.round.val
  let m := s.windowWord i
  if i < 64 then
    { s with
      window := s.window.set (i % 16) m (Nat.mod_lt i (by decide))
      work := shaRound m (roundConstant i) s.work
      round := Fin.ofNat 65 (i + 1)
      phase := if i + 1 = 64 then .compress .add ret else .compress .round ret }
  else s.goto (.compress .add ret)

/-- The return from a compression to the caller's phase (R240). DESIGN CHOICE (log 4), safe: R240 names no phase for
`bit_len <- bit_len + 512; block_len <- 0` after a full block (R100); they are part of this return, and so of the phase
ADD. -/
def State.returnTo (s : State) (ret : Return) : State :=
  match ret with
  | .absorb rest => s.countBlock.absorbNext rest
  | .zeroFresh => s.goto .zeroFresh
  | .done => s.goto .done

/-- ADD (R132), and the return to the caller's phase (R240). DESIGN CHOICE (log 3, log 14), safe: as after a compression
executed at once, the working variables, window and round index are at free values from here on, and so in IDLE. -/
def State.addPhase (s : State) (ret : Return) : State :=
  State.returnTo { s.endCompression with h := addWorking s.h s.work } ret

/-- A phase that writes `Buf` at `block_len`, which must be an index of `Buf` (R66). -/
def atBlockLen (s t : State) : Host.Outcome State Fault Refusal :=
  if s.blockLen.toNat < 64 then .next t else .fault .bufferIndex

/-- One phase of the sequencer (R240). In IDLE nothing moves. DESIGN CHOICE (log 4), safe: the grain of a phase, and that
the writes of R155 to `bit_len`, `block_len` and FINALIZED are DONE's, for which R240 names no phase. -/
def microStep (s : State) : Host.Outcome State Fault Refusal :=
  match s.phase with
  | .idle => .next s
  | .decode w => .next (s.decodePhase w)
  | .reject code => .next (s.reject code).toIdle
  | .setIV => .next s.initContext.toIdle
  | .absorb bytes => if bytes = [] then .next s.toIdle else atBlockLen s (s.absorbPhase bytes)
  | .pad80 => atBlockLen s (s.mark80.goto (if s.blockLen.toNat < 56 then .zero56 else .zero64))
  | .zero56 => .next (s.padRoom.goto .lenField)
  | .zero64 => .next ((s.zeroBuf (s.blockLen.toNat + 1) 64).goto (.compress .load .zeroFresh))
  | .zeroFresh => .next ((s.zeroBuf 0 56).goto .lenField)
  | .lenField => .next (s.writeLength.goto (.compress .load .done))
  | .done => .next s.seal.toIdle
  | .compress .load ret => .next (s.loadPhase ret)
  | .compress .round ret => .next (s.roundPhase ret)
  | .compress .add ret => .next (s.addPhase ret)

/-- At most `n` phases, ending at IDLE. -/
def microRun : Nat → State → Host.Outcome State Fault Refusal
  | 0, s => .next s
  | n + 1, s =>
    match microStep s with
    | .next t => microRun n t
    | .fault r => .fault r
    | .refused r => .refused r

/-- A CMD write of `w` has reached the sequencer: IDLE -> DECODE (R240). -/
def State.startCommand (s : State) (w : Word) : State := s.goto (.decode w)

end Sys2Proof.Machine
end

