-- ==== Sys2Proof/Machine/Step.lean ====
section
/-! DEFINITION. One step of the machine: in IDLE it serves the host's next move, a whole command at once
(20_memory.md R59, R60); in any other phase the sequencer moves on by one phase (70_reset_and_hazards.md R240). -/

namespace Sys2Proof.Machine

def step (s : State) : Host.Outcome State Fault Refusal :=
  match s.phase with
  | .idle => serveNext s
  | .decode _ | .reject _ | .setIV | .absorb _ | .pad80 | .zero56 | .zero64 | .zeroFresh | .lenField | .done
  | .compress _ _ => microStep s

/-- `s` with the command word `w` written to CMD as the host's next move, so that the next step runs it. -/
def State.withFetchWord (s : State) (nbits w : Nat) : State :=
  match Sys2Proof.tableWord nbits w with
  | some v => s.withCommand v
  | none => s

end Sys2Proof.Machine
end

