-- ==== Sys2Proof/Machine/Timing.lean ====
section
/-! DEFINITION. How many compressions a command makes (42_finalize.md R157, 41_compression.md R134) and the stall of a CMD
write as a formula over the open latencies (70_reset_and_hazards.md R238). No step depends on them: the model
represents no time. -/

namespace Sys2Proof.Machine

/-- The compressions FINALIZE makes from a partial block of `n0` bytes (R157). -/
def finalizeCompressions (n0 : Nat) : Nat := if n0 ≤ 55 then 1 else 2

/-- The compressions `xs` absorbed bytes make from a partial block of `n0` bytes, at most one for a command (R103). -/
def absorbCompressions (n0 count : Nat) : Nat := if 64 ≤ n0 + count then 1 else 0

/-- The stall of an UPDATE of `count` bytes (R238). -/
def updateStall (s : State) (count : Nat) : Nat :=
  if s.finalized then Config.latReject
  else if lengthOK s count then
    count * Config.latAbsorb + absorbCompressions s.blockLen.toNat count * Config.latCompress
  else Config.latReject

/-- The stall of a CMD write of `w` (R238). -/
def stall (w : Word) (s : State) : Nat :=
  match decode w with
  | .error _ => Config.latReject
  | .ok .init => Config.latInit
  | .ok (.updateByte _) => updateStall s 1
  | .ok (.updateDin n) => updateStall s n.toNat
  | .ok .finalize =>
    if s.finalized then Config.latReject
    else Config.latFinalize + finalizeCompressions s.blockLen.toNat * Config.latCompress

end Sys2Proof.Machine
end

