-- ==== Sys2Proof/Machine/Statements.lean ====
section
/-! DEFINITION. The host's statements and pseudo-instructions and their expansions (30_encoding.md R77, R78). -/

namespace Sys2Proof.Machine

/-- A host statement (R77). -/
inductive Stmt
  | init
  | updateByte (imm8 : Byte)
  | updateDin (n : Fin 5)
  | finalize
  | cmd (imm32 : Word)
  | wr (off : Nat) (imm32 : Word)
  | rd (off : Nat)
  | expect (off : Nat) (imm32 : Word)
deriving DecidableEq, Repr

/-- A pseudo-instruction (R78), its strings given as bytes. -/
inductive Pseudo
  | setDin (imm32 : Word)
  | feed (bytes : List Byte)
  | feedW (bytes : List Byte)
  | digest
  | hash (bytes : List Byte)
deriving DecidableEq, Repr

/-- The bus access a statement stands for (R77). -/
def stmtMove : Stmt → HostMove
  | .init => .write 0x00 4 0x01000000
  | .updateByte imm8 => .write 0x00 4 (0x02000000 + imm8.setWidth 32)
  | .updateDin n => .write 0x00 4 (0x03000000 + BitVec.ofNat 32 n.val)
  | .finalize => .write 0x00 4 0x04000000
  | .cmd imm32 => .write 0x00 4 imm32
  | .wr off imm32 => .write off 4 imm32
  | .rd off => .read off 4
  | .expect off _ => .read off 4

/-- Whether a response meets a statement's assertion: EXPECT asks for its value, the others ask nothing (R77). -/
def stmtMet (st : Stmt) (r : Response) : Bool :=
  match st with
  | .expect _ imm32 => decide (r = .data imm32)
  | .init => true
  | .updateByte _ => true
  | .updateDin _ => true
  | .finalize => true
  | .cmd _ => true
  | .wr _ _ => true
  | .rd _ => true

/-- The bytes of a string, each character its ASCII code (R77). -/
def asciiBytes (text : String) : List Byte := text.toList.map fun c => BitVec.ofNat 8 c.toNat

/-- `SETDIN` (R78). -/
def setDin (v : Word) : Stmt := .wr (regOffset .din) v

/-- `FEED` (R78). -/
def feed (bytes : List Byte) : List Stmt := bytes.map .updateByte

/-- `FEEDW` (R78): chunks of up to four bytes, each padded with zero bytes to a DIN word. -/
def feedW : List Byte → List Stmt
  | [] => []
  | [a] => [setDin (be32 a 0 0 0), .updateDin 1]
  | [a, b] => [setDin (be32 a b 0 0), .updateDin 2]
  | [a, b, c] => [setDin (be32 a b c 0), .updateDin 3]
  | a :: b :: c :: d :: rest => setDin (be32 a b c d) :: .updateDin 4 :: feedW rest

/-- `DIGEST` (R78). -/
def digestReads : List Stmt :=
  [.rd 0x20, .rd 0x24, .rd 0x28, .rd 0x2C, .rd 0x30, .rd 0x34, .rd 0x38, .rd 0x3C]

/-- The expansion of a pseudo-instruction (R78). -/
def pseudoExpand : Pseudo → List Stmt
  | .setDin v => [setDin v]
  | .feed bytes => feed bytes
  | .feedW bytes => feedW bytes
  | .digest => digestReads
  | .hash bytes => .init :: feed bytes ++ .finalize :: digestReads

/-- The host's moves for a list of statements. -/
def stmtMoves (stmts : List Stmt) : List HostMove := stmts.map stmtMove

/-- A host program's moves served one after the other (R60, R236), stopping at the first fault or refusal, and after a
`BusError` response if `HOST_BUSERR` says that the host issues nothing more (R6; log 7). -/
def serveAll (moves : List HostMove) (s : State) : Host.Outcome State Fault Refusal :=
  match moves with
  | [] => .next s
  | m :: rest =>
    match serve m s with
    | .next t => if hostGoesOn m then serveAll rest t else .next t
    | .fault r => .fault r
    | .refused r => .refused r

end Sys2Proof.Machine
end

