-- ==== Sys2Proof/Safety.lean ====
section
/-! DEFINITION. The terms claims use: the invariants between commands (10_state.md R41), what it is for the unit to hold a
message or its digest (R41(b), (c), (e)), the SHA-256 digest of a message (42_finalize.md R158), sequences of commands
(40_context.md R105), and what it is for two states to agree (R42, R106). -/

namespace Sys2Proof.Machine

/-- What R41 (a) to (d) says of the state alone, with `Buf` in canonical form and the sequencer in IDLE (R240). -/
structure Inv (s : State) : Prop where
  idle : s.phase = .idle
  bufWf : s.buf.wf = true
  blockLen_le : s.blockLen.toNat ≤ 63
  bitLen_open : s.finalized = false → s.bitLen.toNat % 512 = 0
  length_open : s.finalized = false → s.bitLen.toNat + 8 * s.blockLen.toNat < 2 ^ 64
  blockLen_final : s.finalized = true → s.blockLen = 0
  bitLen_final : s.finalized = true → s.bitLen.toNat % 8 = 0
  err_iff : s.err = false ↔ s.errCode = 0
  errCode_le : s.errCode.toNat ≤ 3
  misuse_final : s.errCode = 2 → s.finalized = true

/-- The chaining value after the first `n` 64-byte blocks of `bytes`, from `h` (R158). -/
def hashBlocks (n : Nat) (bytes : List Byte) (h : Chain) : Chain :=
  match n with
  | 0 => h
  | k + 1 => compress (hashBlocks k bytes h) ((bytes.drop (64 * k)).take 64)

/-- `z = (55 - n) mod 64`, the zero bytes of the padding (R158). -/
def zeroCount (n : Nat) : Nat := (119 - n % 64) % 64

/-- The padded message `P = M ‖ 0x80 ‖ 0x00^z ‖ BE64inv(8n)` (R158). -/
def padded (message : List Byte) : List Byte :=
  message ++ [0x80] ++ List.replicate (zeroCount message.length) 0x00 ++
    be64inv (BitVec.ofNat 64 (8 * message.length))

/-- The final state of a message: `Compress` over the blocks of `P`, from `IV` (R158). -/
def sha256 (message : List Byte) : Chain :=
  hashBlocks ((padded message).length / 64) (padded message) iv

/-- The unit holds the unfinished message `message`: R41(b) and (e), with `H` the chaining value of its full blocks
(R20). -/
structure Absorbed (s : State) (message : List Byte) : Prop where
  opened : s.finalized = false
  bounded : 8 * message.length < 2 ^ 64
  chain : s.h = hashBlocks (message.length / 64) message iv
  blockLen_eq : s.blockLen.toNat = message.length % 64
  bitLen_eq : s.bitLen.toNat = 512 * (message.length / 64)
  buffered : ∀ j, j < message.length % 64 →
    s.readBuf j = message.getD (64 * (message.length / 64) + j) 0

/-- The unit holds the digest of `message` (R41(c)). -/
structure Digested (s : State) (message : List Byte) : Prop where
  closed : s.finalized = true
  bounded : 8 * message.length < 2 ^ 64
  chain : s.h = sha256 message
  blockLen_eq : s.blockLen = 0
  bitLen_eq : s.bitLen.toNat = 8 * message.length

/-- R41 whole: the invariants, and some message that the unit holds or has digested. -/
structure Consistent (s : State) : Prop where
  inv : Inv s
  message : ∃ m, Absorbed s m ∨ Digested s m

/-- No rejection and no bus error has been recorded: the premise of a claim about a host's run (R218). -/
def Clean (s : State) : Prop := s.record = []

/-- Commands executed one after the other, stopping at the first fault or refusal (R60). -/
def execAll (is : List Instr) (s : State) : Host.Outcome State Fault Refusal :=
  match is with
  | [] => .next s
  | i :: rest =>
    match exec i s with
    | .next t => execAll rest t
    | .fault r => .fault r
    | .refused r => .refused r

/-- The UPDATE commands with a legal encoding. -/
def isUpdate : Instr → Bool
  | .init => false
  | .updateByte _ => true
  | .updateDin n => decide (n.toNat ≤ 4)
  | .finalize => false

/-- The bytes a command absorbs when DIN holds `din` (R102, R103). -/
def absorbedBytes (din : Word) : Instr → List Byte
  | .init => []
  | .updateByte b => [b]
  | .updateDin n => dinBytes din n
  | .finalize => []

/-- Two states agree on what a result can depend on: the context with `Buf[0..block_len)`, the error record's register
and DIN (R42, R106). -/
structure SameContext (s t : State) : Prop where
  h : t.h = s.h
  blockLen : t.blockLen = s.blockLen
  bitLen : t.bitLen = s.bitLen
  finalized : t.finalized = s.finalized
  err : t.err = s.err
  errCode : t.errCode = s.errCode
  din : t.din = s.din
  buffered : ∀ j, j < s.blockLen.toNat → t.readBuf j = s.readBuf j

/-- The same hash context, DIN and the error record left aside (R105, R78). -/
structure SameMessage (s t : State) : Prop where
  h : t.h = s.h
  blockLen : t.blockLen = s.blockLen
  bitLen : t.bitLen = s.bitLen
  finalized : t.finalized = s.finalized
  buffered : ∀ j, j < s.blockLen.toNat → t.readBuf j = s.readBuf j

/-- FRAME. DIN, the sequencer phase, and the host's side are as before. -/
structure KeepsHostSide (s t : State) : Prop where
  din : t.din = s.din
  phase : t.phase = s.phase
  host : t.host = s.host
  responses : t.responses = s.responses

/-- FRAME. The error record, the hardware's and the model's, is as before (R208, R218). -/
structure KeepsErrors (s t : State) : Prop where
  err : t.err = s.err
  errCode : t.errCode = s.errCode
  record : t.record = s.record

/-- FRAME. The compression's internal registers are as before (R28). -/
structure KeepsInternal (s t : State) : Prop where
  work : t.work = s.work
  window : t.window = s.window
  round : t.round = s.round
  draws : t.draws = s.draws

/-- `t` is `s` with a rejection by `code` recorded and nothing else (R200, R218). -/
def Rejected (code : ErrCode) (s t : State) : Prop :=
  t = { s with err := true, errCode := errCodeBits code, record := s.record ++ [.rejected code] }

/-- `Buf` lists a byte exactly at the indices below `block_len`: at and above it no byte has a value but a free one (R13,
R21, R42; 92 D28). -/
def OnlyBlockHeld (s : State) : Prop := s.buf.map Prod.fst = List.range s.blockLen.toNat

/-- `n` steps, stopping at the first fault or refusal. -/
def stepRun : Nat → State → Host.Outcome State Fault Refusal
  | 0, s => .next s
  | n + 1, s =>
    match step s with
    | .next t => stepRun n t
    | .fault r => .fault r
    | .refused r => .refused r

end Sys2Proof.Machine
end

