-- ==== Sys2Proof/Certificates/Slice0/Obligations.lean ====
section
/-! DEFINITION. The statements for the provers, one `def Obligations.<Name> : Prop` each, listed in OBLIGATIONS.json. -/

open Sys2Proof Sys2Proof.Machine

/-! ## Encoding -/

/-- Some of the exact words of R72 and R74, read by the decoder. -/
def Obligations.CommandWordsDecode : Prop :=
  decode 0x01000000 = .ok .init ∧
  decode 0x020000ff = .ok (.updateByte 0xff) ∧
  decode 0x03000004 = .ok (.updateDin 4) ∧
  decode 0x04000000 = .ok .finalize ∧
  decode 0x00000000 = .error .unknownOp ∧
  decode 0xffffffff = .error .reservedBits ∧
  decode 0x04000080 = .error .operandNotZero ∧
  decode 0x03000008 = .error .operandHighBits ∧
  decode 0x03000005 = .error .countTooLarge

/-- R72, R76: a word decodes to a command exactly when the command is well formed and has that word. -/
def Obligations.DecodeInvertsEncode : Prop :=
  ∀ (w : Word) (i : Instr), decode w = .ok i ↔ (i.wellFormed = true ∧ encode i = w)

/-- R74: a word is illegal exactly in the cases (a) to (e), and executing an illegal word records ILLEGAL_CMD and has no
other effect. -/
def Obligations.IllegalWordsAreRejected : Prop :=
  (∀ w : Word, (∃ e, decode w = .error e) ↔
    (w.extractLsb' 8 16 ≠ 0 ∨
     (w.toNat / 2 ^ 24 ≠ 1 ∧ w.toNat / 2 ^ 24 ≠ 2 ∧ w.toNat / 2 ^ 24 ≠ 3 ∧ w.toNat / 2 ^ 24 ≠ 4) ∨
     ((w.toNat / 2 ^ 24 = 1 ∨ w.toNat / 2 ^ 24 = 4) ∧ w.extractLsb' 0 8 ≠ 0) ∨
     (w.toNat / 2 ^ 24 = 3 ∧ w.extractLsb' 3 5 ≠ 0) ∨
     (w.toNat / 2 ^ 24 = 3 ∧ 5 ≤ w.toNat % 8))) ∧
  (∀ (w : Word) (e : Illegal) (s : State), decode w = .error e →
    ∃ t, executeWord w s = .next t ∧ Rejected .illegalCmd s t) ∧
  (∃ e, decode 0x00000000 = .error e) ∧ (∃ e, decode 0xFFFFFFFF = .error e)

/-! ## A step -/

/-- R59, R60, R76: in IDLE, with a CMD write of a word that decodes to `i` as the host's next move, a step takes the move
off the host's queue, executes `i`, and then answers `OK`. -/
def Obligations.StepRunsDecodedCommand : Prop :=
  ∀ (s : State) (w : Word) (i : Instr) (rest : List HostMove),
    s.phase = .idle → s.host = .write 0x00 4 w :: rest → decode w = .ok i →
    step s = answerOk (exec i { s with host := rest }) ∧
    (∀ t, exec i { s with host := rest } = .next t →
      step s = .next { t with responses := t.responses ++ [.ok] })

/-- R74, R200, R202: in IDLE, a CMD write of an illegal word leaves the state as it was but for ERR, ERRCODE = 1, the
model's record and the answer, which is `OK`. -/
def Obligations.StepRejectsIllegalWord : Prop :=
  ∀ (s : State) (w : Word) (e : Illegal) (rest : List HostMove),
    s.phase = .idle → s.host = .write 0x00 4 w :: rest → decode w = .error e →
    step s = .next { s with
      host := rest
      err := true
      errCode := 1
      record := s.record ++ [.rejected .illegalCmd]
      responses := s.responses ++ [.ok] }

/-- R60, R236, R6 (log 1, log 7): with a host program's moves pending in IDLE, as many steps as there are moves end as the
program served in order ends: both stop at the first fault or refusal, and after a BusError both do what HOST_BUSERR
says. That the free values agree too is the model's choice (log 2, log 3, log 14). -/
def Obligations.StepsRunTheHostProgram : Prop :=
  ∀ (s : State) (moves : List HostMove), s.phase = .idle →
    stepRun moves.length { s with host := moves } = serveAll moves { s with host := [] }

/-- R217 (log 11): in IDLE with no move of the host pending, a step leaves the state as it is. -/
def Obligations.IdleUnitKeepsState : Prop :=
  ∀ s : State, s.phase = .idle → s.host = [] → step s = .next s

/-- R218: no step takes an entry out of the model's fault record, from any state, INIT and reset included. -/
def Obligations.RecordOnlyGrows : Prop :=
  ∀ s t : State, step s = .next t → ∃ entries, t.record = s.record ++ entries

/-- R26, R32: from IDLE, DIN changes only by a 32-bit write of offset 0x04, to the value written, and by reset, to 0. -/
def Obligations.OnlyDinWriteOrResetChangesDin : Prop :=
  ∀ s t : State, s.phase = .idle → step s = .next t →
    t.din = s.din ∨
    (∃ v rest, s.host = .write 0x04 4 v :: rest ∧ t.din = v) ∨
    (∃ rest, s.host = .reset :: rest ∧ t.din = 0)

/-- R66, R209: from every state that meets the invariants a step answers a next state, except for a host access outside
the window. -/
def Obligations.StepNeverFaultsUnderInvariant : Prop :=
  ∀ s : State, Inv s →
    (∃ t, step s = .next t) ∨
    (step s = .refused .outsideWindow ∧
      ∃ off n rest, 64 ≤ off ∧
        (s.host = .read off n :: rest ∨ ∃ v, s.host = .write off n v :: rest))

/-! ## INIT -/

/-- R101: INIT completes in every state; H0-H7 read the IV, block_len, bit_len, FINALIZED, ERR and ERRCODE are 0; DIN, the
host's side, the internal registers and the fault record are as before; a second INIT changes nothing. What `Buf` holds
after the first is any value (93 section 1); that the second keeps even the free bytes is the model's choice (log 14). -/
def Obligations.InitResetsContext : Prop :=
  ∀ s : State, ∃ t, exec .init s = .next t ∧
    (readReg t (.h 0) = 0x6a09e667 ∧ readReg t (.h 1) = 0xbb67ae85 ∧
     readReg t (.h 2) = 0x3c6ef372 ∧ readReg t (.h 3) = 0xa54ff53a ∧
     readReg t (.h 4) = 0x510e527f ∧ readReg t (.h 5) = 0x9b05688c ∧
     readReg t (.h 6) = 0x1f83d9ab ∧ readReg t (.h 7) = 0x5be0cd19) ∧
    t.blockLen = 0 ∧ t.bitLen = 0 ∧ t.finalized = false ∧ t.err = false ∧ t.errCode = 0 ∧
    (readReg t .blockLen = 0 ∧ readReg t .bitLenLo = 0 ∧ readReg t .bitLenHi = 0 ∧ readReg t .status = 0) ∧
    t.record = s.record ∧
    KeepsHostSide s t ∧ KeepsInternal s t ∧
    exec .init t = .next t

/-! ## UPDATE_BYTE and UPDATE_DIN -/

/-- R100: `Absorb(x)` with `block_len <= 63`. Below 63 the byte goes to `Buf[block_len]` and nowhere else, and only
`block_len` moves; at 63 the block with the byte at its end is compressed, 512 is added to `bit_len` modulo 2^64 and
`block_len` is 0. No flag changes. What `Buf` holds after the compression is any value (R42, D28, log 14). -/
def Obligations.AbsorbStoresOneByte : Prop :=
  ∀ (s : State) (x : Byte), s.blockLen.toNat ≤ 63 →
    ∃ t, absorb x s = .next t ∧
      (s.blockLen.toNat < 63 →
        (∀ a, t.readBuf a = if a = s.blockLen.toNat then x else s.readBuf a) ∧
        t.blockLen.toNat = s.blockLen.toNat + 1 ∧ t.h = s.h ∧ t.bitLen = s.bitLen ∧ KeepsInternal s t) ∧
      (s.blockLen.toNat = 63 →
        t.blockLen = 0 ∧ t.bitLen.toNat = (s.bitLen.toNat + 512) % 2 ^ 64 ∧
        t.h = compress s.h ((List.range 64).map fun a => if a = 63 then x else s.readBuf a)) ∧
      t.finalized = s.finalized ∧ KeepsErrors s t ∧ KeepsHostSide s t

/-- R102, R100, R104: UPDATE_BYTE completes whenever the context is open, the length guard holds and block_len is at most
63: it absorbs its byte; FINALIZED, the error record, DIN and the host's side are as before. What `Buf` and the internal
registers hold after a compression is any value (log 3, log 14). -/
def Obligations.UpdateByteAbsorbsItsByte : Prop :=
  ∀ (s : State) (b : Byte), s.blockLen.toNat ≤ 63 → s.finalized = false →
    s.bitLen.toNat + 8 * (s.blockLen.toNat + 1) < 2 ^ 64 →
    ∃ t, exec (.updateByte b) s = .next t ∧
      (s.blockLen.toNat < 63 →
        (∀ a, t.readBuf a = if a = s.blockLen.toNat then b else s.readBuf a) ∧
        t.blockLen.toNat = s.blockLen.toNat + 1 ∧ t.h = s.h ∧ t.bitLen = s.bitLen ∧ KeepsInternal s t) ∧
      (s.blockLen.toNat = 63 →
        t.blockLen = 0 ∧ t.bitLen.toNat = s.bitLen.toNat + 512 ∧
        t.h = compress s.h ((List.range 64).map fun a => if a = 63 then b else s.readBuf a)) ∧
      t.finalized = false ∧ KeepsErrors s t ∧ KeepsHostSide s t

/-- R103, R100, R104: UPDATE_DIN N, N at most 4, completes whenever the context is open, the length guard holds for N
bytes and block_len is at most 63. While the block has room, byte j of DIN (bits [31-8j : 24-8j]) goes to
`Buf[block_len + j]` and every other index is as before. When the block fills it is compressed once, and the bytes left
over stand from `Buf[0]` on; what the rest of `Buf` and the internal registers hold then is any value (log 3, log 14).
FINALIZED, the error record, DIN and the host's side are as before. -/
def Obligations.UpdateDinAbsorbsItsBytes : Prop :=
  ∀ (s : State) (n : BitVec 3), n.toNat ≤ 4 → s.blockLen.toNat ≤ 63 → s.finalized = false →
    s.bitLen.toNat + 8 * (s.blockLen.toNat + n.toNat) < 2 ^ 64 →
    ∃ t, exec (.updateDin n) s = .next t ∧
      (s.blockLen.toNat + n.toNat < 64 →
        (∀ j, j < n.toNat → t.readBuf (s.blockLen.toNat + j) = s.din.extractLsb' (24 - 8 * j) 8) ∧
        (∀ a, (∀ j, j < n.toNat → a ≠ s.blockLen.toNat + j) → t.readBuf a = s.readBuf a) ∧
        t.blockLen.toNat = s.blockLen.toNat + n.toNat ∧ t.h = s.h ∧ t.bitLen = s.bitLen ∧ KeepsInternal s t) ∧
      (64 ≤ s.blockLen.toNat + n.toNat →
        (∀ j, j < n.toNat → 64 ≤ s.blockLen.toNat + j →
          t.readBuf (s.blockLen.toNat + j - 64) = s.din.extractLsb' (24 - 8 * j) 8) ∧
        t.blockLen.toNat = s.blockLen.toNat + n.toNat - 64 ∧ t.bitLen.toNat = s.bitLen.toNat + 512 ∧
        t.h = compress s.h ((List.range 64).map fun a =>
          if s.blockLen.toNat ≤ a then s.din.extractLsb' (24 - 8 * (a - s.blockLen.toNat)) 8 else s.readBuf a)) ∧
      t.finalized = false ∧ KeepsErrors s t ∧ KeepsHostSide s t

/-- R105, R102, R103: an UPDATE_DIN that the length guard lets through does exactly what the UPDATE_BYTEs of its bytes do.
R105 equates H, `Buf[0..block_len)`, block_len and bit_len. That the whole state agrees, the free bytes of `Buf` and the
free internal registers included, is the model's choice: both ways advance its draw counters alike (log 2, log 3,
log 14). -/
def Obligations.UpdateDinEqualsByteUpdates : Prop :=
  ∀ (s : State) (n : BitVec 3), n.toNat ≤ 4 → s.finalized = false →
    s.bitLen.toNat + 8 * (s.blockLen.toNat + n.toNat) < 2 ^ 64 →
    exec (.updateDin n) s = execAll ((dinBytes s.din n).map .updateByte) s

/-! ## Rejections -/

/-- R203: while FINALIZED is 1, UPDATE_BYTE, UPDATE_DIN (N from 0 to 4) and FINALIZE are rejected with CONTEXT_MISUSE;
nothing but the error record changes, so the digest in H stays. -/
def Obligations.MisuseAfterFinalizeIsRejected : Prop :=
  ∀ s : State, s.finalized = true →
    (∀ b, ∃ t, exec (.updateByte b) s = .next t ∧ Rejected .contextMisuse s t ∧ t.errCode = 2 ∧ t.h = s.h) ∧
    (∀ n : BitVec 3, n.toNat ≤ 4 →
      ∃ t, exec (.updateDin n) s = .next t ∧ Rejected .contextMisuse s t ∧ t.errCode = 2 ∧ t.h = s.h) ∧
    (∃ t, exec .finalize s = .next t ∧ Rejected .contextMisuse s t ∧ t.errCode = 2 ∧ t.h = s.h)

/-- R204: with the context open, an UPDATE whose bytes would take the message to 2^64 bits or more is rejected with
LENGTH_EXCEEDED and absorbs none of them; in a state that meets the invariants UPDATE_DIN 0 never is. -/
def Obligations.LengthBoundIsEnforced : Prop :=
  ∀ s : State, s.finalized = false →
    (∀ b, 2 ^ 64 ≤ s.bitLen.toNat + 8 * (s.blockLen.toNat + 1) →
      ∃ t, exec (.updateByte b) s = .next t ∧ Rejected .lengthExceeded s t ∧ t.errCode = 3) ∧
    (∀ n : BitVec 3, n.toNat ≤ 4 → 2 ^ 64 ≤ s.bitLen.toNat + 8 * (s.blockLen.toNat + n.toNat) →
      ∃ t, exec (.updateDin n) s = .next t ∧ Rejected .lengthExceeded s t ∧ t.errCode = 3) ∧
    (Inv s → exec (.updateDin 0) s = .next s)

/-- R207: the width and alignment check comes before the command; of one word's errors ILLEGAL_CMD comes before
CONTEXT_MISUSE and CONTEXT_MISUSE before LENGTH_EXCEEDED. -/
def Obligations.FirstFailingCheckDecides : Prop :=
  (∀ (s : State) (off n : Nat) (v : Word), off < 64 → (n ≠ 4 ∨ off % 4 ≠ 0) →
    serve (.write off n v) s = .next s.takeBusError ∧ serve (.read off n) s = .next s.takeBusError) ∧
  (∀ (s : State) (w : Word) (e : Illegal), decode w = .error e →
    ∃ t, executeWord w s = .next t ∧ Rejected .illegalCmd s t) ∧
  (∀ (s : State) (i : Instr), isUpdate i = true → s.finalized = true →
    ∃ t, executeWord (encode i) s = .next t ∧ Rejected .contextMisuse s t)

/-- R208, R211: a command other than INIT either leaves the error record as it was, or is rejected: then ERR is 1,
ERRCODE is the code of this rejection, and nothing else has changed. -/
def Obligations.CommandKeepsErrorsOrIsRejected : Prop :=
  ∀ (i : Instr) (s t : State), i ≠ .init → exec i s = .next t →
    KeepsErrors s t ∨ ∃ code, Rejected code s t

/-- R24, R200: FINALIZED after a command: 0 after INIT, 1 after FINALIZE, otherwise as before; and no command changes
DIN, the phase or the host's side. -/
def Obligations.CommandSetsFinalized : Prop :=
  ∀ (i : Instr) (s t : State), exec i s = .next t →
    (i = .init → t.finalized = false) ∧
    (i = .finalize → t.finalized = true) ∧
    (i ≠ .init → i ≠ .finalize → t.finalized = s.finalized) ∧
    KeepsHostSide s t

/-- Log 5, log 13 (the model's choices; R22, R66 and R74(e) bear on them): with `block_len` at 64 or more, where no rule
describes the unit, an UPDATE_BYTE that passes its checks stops with the fault `bufferIndex`, and so does a FINALIZE;
an UPDATE_DIN whose count has no legal word is rejected as an illegal command. -/
def Obligations.OutOfRangeOperandsStopOrAreRejected : Prop :=
  (∀ (s : State) (b : Byte), 64 ≤ s.blockLen.toNat → s.finalized = false →
    s.bitLen.toNat + 8 * (s.blockLen.toNat + 1) < 2 ^ 64 →
    exec (.updateByte b) s = .fault .bufferIndex) ∧
  (∀ s : State, 64 ≤ s.blockLen.toNat → s.finalized = false → exec .finalize s = .fault .bufferIndex) ∧
  (∀ (s : State) (n : BitVec 3), 4 < n.toNat →
    ∃ t, exec (.updateDin n) s = .next t ∧ Rejected .illegalCmd s t)

/-! ## FINALIZE -/

/-- R150, R151, R153, R155: FINALIZE completes on an open context with at most 55 bytes in the block and a length below
2^64. The last block is the bytes of the block, 0x80, zeros up to 56 and the length big-endian; H is that block
compressed once, counted by the model's draw counter (log 3); bit_len is the message's length, block_len 0, FINALIZED 1;
the error record, DIN and the host's side are as before. What `Buf` holds after the compression is any value (R42, D28,
log 14). -/
def Obligations.FinalizeWithRoomForLength : Prop :=
  ∀ s : State, s.finalized = false → s.blockLen.toNat ≤ 55 →
    s.bitLen.toNat + 8 * s.blockLen.toNat < 2 ^ 64 →
    ∃ t, exec .finalize s = .next t ∧
      t.h = compress s.h ((List.range 64).map fun a =>
        if a < s.blockLen.toNat then s.readBuf a
        else if a = s.blockLen.toNat then 0x80
        else if a < 56 then 0x00
        else t.bitLen.extractLsb' (56 - 8 * (a - 56)) 8) ∧
      t.draws = s.draws + 1 ∧
      t.bitLen.toNat = s.bitLen.toNat + 8 * s.blockLen.toNat ∧ t.blockLen = 0 ∧ t.finalized = true ∧
      KeepsErrors s t ∧ KeepsHostSide s t

/-- R150, R152, R153, R154, R155: FINALIZE completes on an open context with 56 to 63 bytes in the block. The block with
0x80 and zeros to its end is compressed first; then the block of 56 zeros and the length; bit_len counts the message
alone; the error record, DIN and the host's side are as before. What `Buf` holds after the compressions is any value
(log 14). -/
def Obligations.FinalizeWithoutRoomForLength : Prop :=
  ∀ s : State, s.finalized = false → 56 ≤ s.blockLen.toNat → s.blockLen.toNat ≤ 63 →
    s.bitLen.toNat + 8 * s.blockLen.toNat < 2 ^ 64 →
    ∃ t, exec .finalize s = .next t ∧
      t.h = compress
        (compress s.h ((List.range 64).map fun a =>
          if a < s.blockLen.toNat then s.readBuf a else if a = s.blockLen.toNat then 0x80 else 0x00))
        ((List.range 64).map fun a => if a < 56 then 0x00 else t.bitLen.extractLsb' (56 - 8 * (a - 56)) 8) ∧
      t.bitLen.toNat = s.bitLen.toNat + 8 * s.blockLen.toNat ∧ t.blockLen = 0 ∧ t.finalized = true ∧
      KeepsErrors s t ∧ KeepsHostSide s t

/-- R157, R134: the compressions of a command, counted by the model's draw counter: FINALIZE makes one from at most 55
bytes and two from 56 or more; an UPDATE makes one exactly when its bytes fill the block; a rejection makes none. -/
def Obligations.CompressionCounts : Prop :=
  ∀ (s t : State), s.blockLen.toNat ≤ 63 →
    (s.finalized = false → exec .finalize s = .next t →
      t.draws = s.draws + finalizeCompressions s.blockLen.toNat) ∧
    (∀ i, isUpdate i = true → exec i s = .next t → t.record = s.record →
      t.draws = s.draws + absorbCompressions s.blockLen.toNat (absorbedBytes s.din i).length) ∧
    (∀ i, exec i s = .next t → t.record ≠ s.record → t.draws = s.draws)

/-- R156: the digest is 32 bytes, and byte 4i + j is bits [31-8j : 24-8j] of the 32-bit read of H`i`. -/
def Obligations.DigestBytesAreRegisterBytes : Prop :=
  ∀ (s : State), (digest s.h).length = 32 ∧
    ∀ (i : Fin 8) (j : Nat), j < 4 →
      (digest s.h).getD (4 * i.val + j) 0 = (readReg s (.h i)).extractLsb' (24 - 8 * j) 8

/-! ## The compression function -/

/-- R10: the model's rotation is the rotation of the 32 bits: bit `i` of the result is bit `(i + n) mod 32`, and the
shift brings in zeros. -/
def Obligations.RotationAndShiftBits : Prop :=
  ∀ (x : Word) (n i : Nat), 0 < n → n < 32 → i < 32 →
    (rotr x n).getLsbD i = x.getLsbD ((i + n) % 32) ∧
    (x >>> n).getLsbD i = (decide (i + n < 32) && x.getLsbD (i + n))

/-- R126, R127: Ch takes each bit from `f` where `e` has a 1 and from `g` where it has a 0; Maj takes the bit that at least
two of the three have, and equals the exclusive-or form. -/
def Obligations.ChooseAndMajorityBits : Prop :=
  (∀ (e f g : Word) (i : Nat), i < 32 →
    (choose e f g).getLsbD i = (if e.getLsbD i then f.getLsbD i else g.getLsbD i)) ∧
  (∀ (a b c : Word) (i : Nat), i < 32 →
    ((majority a b c).getLsbD i = true ↔
      2 ≤ (a.getLsbD i).toNat + (b.getLsbD i).toNat + (c.getLsbD i).toNat)) ∧
  (∀ a b c : Word, majority a b c = (a &&& b) ^^^ (a &&& c) ^^^ (b &&& c))

/-- R136: σ0, σ1, Σ0 and Σ1 are linear over exclusive or. -/
def Obligations.SigmasAreLinear : Prop :=
  ∀ x y : Word,
    smallSigma0 (x ^^^ y) = smallSigma0 x ^^^ smallSigma0 y ∧
    smallSigma1 (x ^^^ y) = smallSigma1 x ^^^ smallSigma1 y ∧
    bigSigma0 (x ^^^ y) = bigSigma0 x ^^^ bigSigma0 y ∧
    bigSigma1 (x ^^^ y) = bigSigma1 x ^^^ bigSigma1 y

/-- R128, R129: the schedule has 64 words; the first sixteen are the block's big-endian words, and each later one is
`σ1(m[k-2]) + m[k-7] + σ0(m[k-15]) + m[k-16]`. -/
def Obligations.ScheduleFollowsRecurrence : Prop :=
  ∀ block : List Byte, (schedule block).length = 64 ∧
    (∀ t, t < 16 → (schedule block).getD t 0 =
      be32 (block.getD (4 * t) 0) (block.getD (4 * t + 1) 0) (block.getD (4 * t + 2) 0) (block.getD (4 * t + 3) 0)) ∧
    (∀ k, 16 ≤ k → k < 64 → (schedule block).getD k 0 =
      smallSigma1 ((schedule block).getD (k - 2) 0) + (schedule block).getD (k - 7) 0 +
        smallSigma0 ((schedule block).getD (k - 15) 0) + (schedule block).getD (k - 16) 0)

/-- R131, R8: a round's two new words as sums of naturals kept modulo 2^32, and the six variables that move down one
place. -/
def Obligations.RoundSumsWrap : Prop :=
  ∀ (m k : Word) (v : Working),
    (shaRound m k v).a.toNat =
      ((bigSigma0 v.a).toNat + (majority v.a v.b v.c).toNat +
        (m.toNat + k.toNat + v.h.toNat + (choose v.e v.f v.g).toNat + (bigSigma1 v.e).toNat)) % 2 ^ 32 ∧
    (shaRound m k v).e.toNat =
      (v.d.toNat + (m.toNat + k.toNat + v.h.toNat + (choose v.e v.f v.g).toNat + (bigSigma1 v.e).toNat)) % 2 ^ 32 ∧
    (shaRound m k v).b = v.a ∧ (shaRound m k v).c = v.b ∧ (shaRound m k v).d = v.c ∧
    (shaRound m k v).f = v.e ∧ (shaRound m k v).g = v.f ∧ (shaRound m k v).h = v.g

/-- R133, R135, R239, R240: from LOAD, 65 phases of the sequencer on its 16-word window (LOAD, ROUND(0) to ROUND(63)) have
written neither H nor `Buf`, and the 66th, ADD, leaves in H exactly `Compress(H, Buf[0..63])` and returns to the caller's
phase; nothing else of the context has changed. That the state is then exactly that of the compression executed at
once is the model's choice: the free values of the internal registers and of `Buf` are drawn alike on both ways (log 3,
log 14), and the count of a full block is part of ADD's return (log 4). -/
def Obligations.WindowDatapathComputesCompress : Prop :=
  ∀ (s : State) (ret : Return), s.phase = .compress .load ret →
    (∃ u, microRun 65 s = .next u ∧ u.phase = .compress .add ret ∧
      u.h = s.h ∧ u.buf = s.buf ∧ u.bufDraw = s.bufDraw) ∧
    microRun 66 s = .next (s.compressBuf.returnTo ret) ∧
    (ret = .done → ∃ t, microRun 66 s = .next t ∧
      t.h = compress s.h s.block ∧ t.phase = .done ∧ t.blockLen = s.blockLen ∧ t.bitLen = s.bitLen ∧
      t.finalized = s.finalized ∧ KeepsErrors s t ∧
      t.din = s.din ∧ t.host = s.host ∧ t.responses = s.responses)

/-- R240, R237, R59: for every state that meets the invariants and every word, the sequencer started on that word is back
in IDLE after at most 138 phases, in exactly the state of the command executed at once and answered `OK`. The grain of a
phase (log 4), and that the free values of the internal registers and of `Buf` agree too (log 3, log 14), are the model's
choice. -/
def Obligations.SequencerRefinesCommand : Prop :=
  ∀ (s : State) (w : Word), Inv s →
    ∃ k u, k ≤ 138 ∧ executeWord w s = .next u ∧ u.phase = .idle ∧
      microRun k (s.startCommand w) = .next (u.respond .ok)

/-! ## The register window -/

/-- R31-R38, R51, R58: an aligned 32-bit read answers with the register's value and changes nothing else: CMD and the
reserved offsets 0, DIN, STATUS as {ERRCODE, 00, ERR, FINALIZED}, BLOCKLEN as block_len[5:0], the halves of bit_len,
and H0-H7. -/
def Obligations.RegisterReadsReturnTheirValue : Prop :=
  ∀ s : State,
    (∀ off v, serve (.read off 4) s = .next { s with responses := s.responses ++ [.data v] } ↔
      off < 64 ∧ off % 4 = 0 ∧ v = readReg s (regAt off)) ∧
    regAt 0x00 = .cmd ∧ regAt 0x04 = .din ∧ regAt 0x08 = .status ∧ regAt 0x0C = .blockLen ∧
    regAt 0x10 = .bitLenLo ∧ regAt 0x14 = .bitLenHi ∧ regAt 0x18 = .reserved18 ∧ regAt 0x1C = .reserved1C ∧
    (∀ i : Fin 8, regAt (0x20 + 4 * i.val) = .h i) ∧
    readReg s .cmd = 0 ∧ readReg s .din = s.din ∧
    (readReg s .status).toNat = 16 * s.errCode.toNat + 2 * s.err.toNat + s.finalized.toNat ∧
    (readReg s .blockLen).toNat = s.blockLen.toNat % 64 ∧
    (readReg s .bitLenLo).toNat = s.bitLen.toNat % 2 ^ 32 ∧
    (readReg s .bitLenHi).toNat = s.bitLen.toNat / 2 ^ 32 ∧
    readReg s .reserved18 = 0 ∧ readReg s .reserved1C = 0 ∧
    readReg s (.h 0) = s.h.h0 ∧ readReg s (.h 1) = s.h.h1 ∧ readReg s (.h 2) = s.h.h2 ∧
    readReg s (.h 3) = s.h.h3 ∧ readReg s (.h 4) = s.h.h4 ∧ readReg s (.h 5) = s.h.h5 ∧
    readReg s (.h 6) = s.h.h6 ∧ readReg s (.h 7) = s.h.h7

/-- R32, R38, R39: an aligned 32-bit write of DIN stores the value there and nowhere else; of a read-only or a reserved
register it changes no state; each is answered `OK`. -/
def Obligations.RegisterWrites : Prop :=
  ∀ (s : State) (off : Nat) (v : Word), off < 64 → off % 4 = 0 → off ≠ 0x00 →
    serve (.write off 4 v) s = .next { s with
      din := if off = 0x04 then v else s.din
      responses := s.responses ++ [.ok] }

/-- R52, R206, R218: an access inside the window of a width other than 4, or at an unaligned offset, is answered
`BusError`; it changes no state of the unit, ERR and ERRCODE included; the model records it, and the host's moves that
follow are all kept or all dropped, as HOST_BUSERR says. -/
def Obligations.BadWidthOrAlignmentIsBusError : Prop :=
  ∀ (s : State) (off n : Nat) (v : Word) (m : HostMove), off < 64 → (n ≠ 4 ∨ off % 4 ≠ 0) →
    (m = .read off n ∨ m = .write off n v) →
    ∃ t, serve m s = .next t ∧
      t = { s with
        responses := s.responses ++ [.busError]
        record := s.record ++ [.busError]
        host := t.host } ∧
      (Config.hostBusErr = .goesOn → t.host = s.host) ∧
      (Config.hostBusErr = .faults → t.host = [])

/-- R51, 93 (log 8, log 9): the platform selects the unit for the addresses BASE .. BASE + 0x3F and no others, and an
access at an offset beyond is refused by name. -/
def Obligations.WindowSelection : Prop :=
  (∀ addr off, windowOffset addr = some off ↔ (off < 64 ∧ addr = Config.base + off)) ∧
  (∀ (s : State) (off n : Nat) (v : Word), 64 ≤ off →
    serve (.read off n) s = .refused .outsideWindow ∧ serve (.write off n v) s = .refused .outsideWindow)

/-- R33: in a state that meets the invariants STATUS reads 0x00, 0x01, 0x12, 0x13, 0x23, 0x32 or 0x33; 0x22 is never
read. -/
def Obligations.StatusReadsReachableValue : Prop :=
  ∀ s : State, Inv s →
    (readReg s .status).toNat ∈ [0x00, 0x01, 0x12, 0x13, 0x23, 0x32, 0x33]

/-! ## Reset -/

/-- R230, R231, R40, R218: reset, from any state and in any phase, leaves the context and the error record exactly as INIT
leaves them, DIN 0 and the sequencer in IDLE; the model's fault record is kept. That the host's pending moves and the
answers already given are kept is the model's choice (log 12): R230 leaves an interrupted access to the platform. -/
def Obligations.ResetEqualsInitWithDinZero : Prop :=
  ∀ s : State, ∃ t u, serve .reset s = .next t ∧ exec .init s = .next u ∧
    t.h = u.h ∧ t.blockLen = u.blockLen ∧ t.bitLen = u.bitLen ∧ t.finalized = u.finalized ∧
    t.err = u.err ∧ t.errCode = u.errCode ∧ t.din = 0 ∧ t.phase = .idle ∧
    t.record = s.record ∧ t.host = s.host ∧ t.responses = s.responses

/-- R41, R40: the state after reset meets the invariants and holds the empty message, and no byte of `Buf` has a value that
a rule fixes. -/
def Obligations.ResetIsConsistent : Prop :=
  Consistent State.reset ∧ Absorbed State.reset [] ∧ Clean State.reset ∧ OnlyBlockHeld State.reset

/-! ## Invariants and whole messages -/

/-- R41 (a) to (d), R240: every step keeps the invariants, from every state that meets them. -/
def Obligations.StepKeepsInvariants : Prop :=
  ∀ s t : State, Inv s → step s = .next t → Inv t

/-- R13, R42, D28 (log 14, the model's form of it): every step keeps it so that `Buf` has a fixed byte at the indices below
block_len and a free value at every other. -/
def Obligations.StepKeepsOnlyBlockHeld : Prop :=
  ∀ s t : State, Inv s → OnlyBlockHeld s → step s = .next t → OnlyBlockHeld t

/-- R41 (a) to (e): every step, of whatever move of the host, takes a state that holds some message or its digest to
another such state. -/
def Obligations.StepKeepsConsistency : Prop :=
  ∀ s t : State, Consistent s → step s = .next t → Consistent t

/-- R100, R103, R41(b), (e): an UPDATE of a state that holds `m`, whose bytes keep the length below 2^64 bits, completes
without a rejection and leaves the unit holding `m` followed by those bytes. -/
def Obligations.UpdateExtendsMessage : Prop :=
  ∀ (s : State) (m : List Byte) (i : Instr), Absorbed s m → isUpdate i = true →
    8 * (m.length + (absorbedBytes s.din i).length) < 2 ^ 64 →
    ∃ t, exec i s = .next t ∧ Absorbed t (m ++ absorbedBytes s.din i) ∧ KeepsErrors s t ∧ KeepsHostSide s t

/-- R158, R41(c): FINALIZE of a state that holds `m` completes and leaves the SHA-256 of `m` in H: the padded message's
blocks compressed in order from IV. -/
def Obligations.FinalizeYieldsSha256 : Prop :=
  ∀ (s : State) (m : List Byte), Absorbed s m →
    ∃ t, exec .finalize s = .next t ∧ Digested t m ∧ KeepsErrors s t ∧ KeepsHostSide s t

/-- R158, R105: INIT, then any sequence of UPDATE commands of fewer than 2^61 bytes in all, then FINALIZE, from every
state: each command completes, none is rejected, and H is the SHA-256 of the bytes. -/
def Obligations.MessageDigestEndToEnd : Prop :=
  ∀ (s : State) (us : List Instr), (∀ i ∈ us, isUpdate i = true) →
    8 * (us.flatMap (absorbedBytes s.din)).length < 2 ^ 64 →
    ∃ t, execAll (.init :: us ++ [.finalize]) s = .next t ∧
      Digested t (us.flatMap (absorbedBytes s.din)) ∧
      t.err = false ∧ t.errCode = 0 ∧ t.record = s.record ∧ KeepsHostSide s t

/-- R42, R106: two states that meet the invariants and agree on the context, with `Buf` below block_len, and on DIN, agree
on them after any command: no byte of `Buf` at or above block_len, and no internal register, reaches a result. -/
def Obligations.ResultsIgnoreUnspecifiedBytes : Prop :=
  ∀ (s s' : State) (i : Instr), Inv s → Inv s' → SameContext s s' →
    ∃ t t', exec i s = .next t ∧ exec i s' = .next t' ∧ SameContext t t'

/-- R78, R105: FEED and FEEDW of the same bytes, on an open context whose length stays below 2^64 bits, leave the same
hash context, all but DIN. -/
def Obligations.FeedWordsEqualsFeedBytes : Prop :=
  ∀ (s : State) (bytes : List Byte), s.blockLen.toNat ≤ 63 → s.finalized = false →
    s.bitLen.toNat + 8 * (s.blockLen.toNat + bytes.length) < 2 ^ 64 →
    ∃ t u, serveAll (stmtMoves (pseudoExpand (.feed bytes))) s = .next t ∧
      serveAll (stmtMoves (pseudoExpand (.feedW bytes))) s = .next u ∧ SameMessage t u

/-- R77, R78, R156, R158: HASH of a message of fewer than 2^61 bytes, from every state, is answered `OK` by every command
and by the eight words of the message's SHA-256 in H0 to H7 order, and nothing is recorded. -/
def Obligations.HashReturnsSha256 : Prop :=
  ∀ (s : State) (m : List Byte), 8 * m.length < 2 ^ 64 →
    ∃ t, serveAll (stmtMoves (pseudoExpand (.hash m))) s = .next t ∧
      t.responses = s.responses ++ List.replicate (m.length + 2) .ok ++
        [.data (sha256 m).h0, .data (sha256 m).h1, .data (sha256 m).h2, .data (sha256 m).h3,
         .data (sha256 m).h4, .data (sha256 m).h5, .data (sha256 m).h6, .data (sha256 m).h7] ∧
      t.record = s.record ∧ readReg t .status = 0x00000001
end

