-- ==== Sys2Proof/Laws/State.lean ====
section
/-! SUPPORT. What each update of the state leaves in each field, one lemma per field per update, true by definition. -/

namespace Sys2Proof.Machine

@[simp] theorem State.writeBuf_h (s : State) (i : Nat) (xs : List Byte) :
    (s.writeBuf i xs).h = s.h := rfl
@[simp] theorem State.writeBuf_buf (s : State) (i : Nat) (xs : List Byte) :
    (s.writeBuf i xs).buf = s.buf.writeList i xs := rfl
@[simp] theorem State.writeBuf_blockLen (s : State) (i : Nat) (xs : List Byte) :
    (s.writeBuf i xs).blockLen = s.blockLen := rfl
@[simp] theorem State.writeBuf_bitLen (s : State) (i : Nat) (xs : List Byte) :
    (s.writeBuf i xs).bitLen = s.bitLen := rfl
@[simp] theorem State.writeBuf_finalized (s : State) (i : Nat) (xs : List Byte) :
    (s.writeBuf i xs).finalized = s.finalized := rfl
@[simp] theorem State.writeBuf_err (s : State) (i : Nat) (xs : List Byte) :
    (s.writeBuf i xs).err = s.err := rfl
@[simp] theorem State.writeBuf_errCode (s : State) (i : Nat) (xs : List Byte) :
    (s.writeBuf i xs).errCode = s.errCode := rfl
@[simp] theorem State.writeBuf_din (s : State) (i : Nat) (xs : List Byte) :
    (s.writeBuf i xs).din = s.din := rfl
@[simp] theorem State.writeBuf_work (s : State) (i : Nat) (xs : List Byte) :
    (s.writeBuf i xs).work = s.work := rfl
@[simp] theorem State.writeBuf_window (s : State) (i : Nat) (xs : List Byte) :
    (s.writeBuf i xs).window = s.window := rfl
@[simp] theorem State.writeBuf_round (s : State) (i : Nat) (xs : List Byte) :
    (s.writeBuf i xs).round = s.round := rfl
@[simp] theorem State.writeBuf_phase (s : State) (i : Nat) (xs : List Byte) :
    (s.writeBuf i xs).phase = s.phase := rfl
@[simp] theorem State.writeBuf_host (s : State) (i : Nat) (xs : List Byte) :
    (s.writeBuf i xs).host = s.host := rfl
@[simp] theorem State.writeBuf_responses (s : State) (i : Nat) (xs : List Byte) :
    (s.writeBuf i xs).responses = s.responses := rfl
@[simp] theorem State.writeBuf_record (s : State) (i : Nat) (xs : List Byte) :
    (s.writeBuf i xs).record = s.record := rfl
@[simp] theorem State.writeBuf_draws (s : State) (i : Nat) (xs : List Byte) :
    (s.writeBuf i xs).draws = s.draws := rfl
@[simp] theorem State.writeBuf_bufDraw (s : State) (i : Nat) (xs : List Byte) :
    (s.writeBuf i xs).bufDraw = s.bufDraw := rfl
@[simp] theorem State.forgetBuf_h (s : State) :
    (s.forgetBuf).h = s.h := rfl
@[simp] theorem State.forgetBuf_buf (s : State) :
    (s.forgetBuf).buf = [] := rfl
@[simp] theorem State.forgetBuf_blockLen (s : State) :
    (s.forgetBuf).blockLen = s.blockLen := rfl
@[simp] theorem State.forgetBuf_bitLen (s : State) :
    (s.forgetBuf).bitLen = s.bitLen := rfl
@[simp] theorem State.forgetBuf_finalized (s : State) :
    (s.forgetBuf).finalized = s.finalized := rfl
@[simp] theorem State.forgetBuf_err (s : State) :
    (s.forgetBuf).err = s.err := rfl
@[simp] theorem State.forgetBuf_errCode (s : State) :
    (s.forgetBuf).errCode = s.errCode := rfl
@[simp] theorem State.forgetBuf_din (s : State) :
    (s.forgetBuf).din = s.din := rfl
@[simp] theorem State.forgetBuf_work (s : State) :
    (s.forgetBuf).work = s.work := rfl
@[simp] theorem State.forgetBuf_window (s : State) :
    (s.forgetBuf).window = s.window := rfl
@[simp] theorem State.forgetBuf_round (s : State) :
    (s.forgetBuf).round = s.round := rfl
@[simp] theorem State.forgetBuf_phase (s : State) :
    (s.forgetBuf).phase = s.phase := rfl
@[simp] theorem State.forgetBuf_host (s : State) :
    (s.forgetBuf).host = s.host := rfl
@[simp] theorem State.forgetBuf_responses (s : State) :
    (s.forgetBuf).responses = s.responses := rfl
@[simp] theorem State.forgetBuf_record (s : State) :
    (s.forgetBuf).record = s.record := rfl
@[simp] theorem State.forgetBuf_draws (s : State) :
    (s.forgetBuf).draws = s.draws := rfl
@[simp] theorem State.forgetBuf_bufDraw (s : State) :
    (s.forgetBuf).bufDraw = s.bufDraw + s.buf.length := rfl
@[simp] theorem State.endCompression_h (s : State) :
    (s.endCompression).h = s.h := rfl
@[simp] theorem State.endCompression_buf (s : State) :
    (s.endCompression).buf = [] := rfl
@[simp] theorem State.endCompression_blockLen (s : State) :
    (s.endCompression).blockLen = s.blockLen := rfl
@[simp] theorem State.endCompression_bitLen (s : State) :
    (s.endCompression).bitLen = s.bitLen := rfl
@[simp] theorem State.endCompression_finalized (s : State) :
    (s.endCompression).finalized = s.finalized := rfl
@[simp] theorem State.endCompression_err (s : State) :
    (s.endCompression).err = s.err := rfl
@[simp] theorem State.endCompression_errCode (s : State) :
    (s.endCompression).errCode = s.errCode := rfl
@[simp] theorem State.endCompression_din (s : State) :
    (s.endCompression).din = s.din := rfl
@[simp] theorem State.endCompression_work (s : State) :
    (s.endCompression).work = Config.freeWorking s.draws := rfl
@[simp] theorem State.endCompression_window (s : State) :
    (s.endCompression).window = Config.freeWindow s.draws := rfl
@[simp] theorem State.endCompression_round (s : State) :
    (s.endCompression).round = Config.freeRound s.draws := rfl
@[simp] theorem State.endCompression_phase (s : State) :
    (s.endCompression).phase = s.phase := rfl
@[simp] theorem State.endCompression_host (s : State) :
    (s.endCompression).host = s.host := rfl
@[simp] theorem State.endCompression_responses (s : State) :
    (s.endCompression).responses = s.responses := rfl
@[simp] theorem State.endCompression_record (s : State) :
    (s.endCompression).record = s.record := rfl
@[simp] theorem State.endCompression_draws (s : State) :
    (s.endCompression).draws = s.draws + 1 := rfl
@[simp] theorem State.endCompression_bufDraw (s : State) :
    (s.endCompression).bufDraw = s.bufDraw + s.buf.length := rfl
@[simp] theorem State.compressBuf_h (s : State) :
    (s.compressBuf).h = compress s.h s.block := rfl
@[simp] theorem State.compressBuf_buf (s : State) :
    (s.compressBuf).buf = [] := rfl
@[simp] theorem State.compressBuf_blockLen (s : State) :
    (s.compressBuf).blockLen = s.blockLen := rfl
@[simp] theorem State.compressBuf_bitLen (s : State) :
    (s.compressBuf).bitLen = s.bitLen := rfl
@[simp] theorem State.compressBuf_finalized (s : State) :
    (s.compressBuf).finalized = s.finalized := rfl
@[simp] theorem State.compressBuf_err (s : State) :
    (s.compressBuf).err = s.err := rfl
@[simp] theorem State.compressBuf_errCode (s : State) :
    (s.compressBuf).errCode = s.errCode := rfl
@[simp] theorem State.compressBuf_din (s : State) :
    (s.compressBuf).din = s.din := rfl
@[simp] theorem State.compressBuf_work (s : State) :
    (s.compressBuf).work = Config.freeWorking s.draws := rfl
@[simp] theorem State.compressBuf_window (s : State) :
    (s.compressBuf).window = Config.freeWindow s.draws := rfl
@[simp] theorem State.compressBuf_round (s : State) :
    (s.compressBuf).round = Config.freeRound s.draws := rfl
@[simp] theorem State.compressBuf_phase (s : State) :
    (s.compressBuf).phase = s.phase := rfl
@[simp] theorem State.compressBuf_host (s : State) :
    (s.compressBuf).host = s.host := rfl
@[simp] theorem State.compressBuf_responses (s : State) :
    (s.compressBuf).responses = s.responses := rfl
@[simp] theorem State.compressBuf_record (s : State) :
    (s.compressBuf).record = s.record := rfl
@[simp] theorem State.compressBuf_draws (s : State) :
    (s.compressBuf).draws = s.draws + 1 := rfl
@[simp] theorem State.compressBuf_bufDraw (s : State) :
    (s.compressBuf).bufDraw = s.bufDraw + s.buf.length := rfl
@[simp] theorem State.reject_h (s : State) (code : ErrCode) :
    (s.reject code).h = s.h := rfl
@[simp] theorem State.reject_buf (s : State) (code : ErrCode) :
    (s.reject code).buf = s.buf := rfl
@[simp] theorem State.reject_blockLen (s : State) (code : ErrCode) :
    (s.reject code).blockLen = s.blockLen := rfl
@[simp] theorem State.reject_bitLen (s : State) (code : ErrCode) :
    (s.reject code).bitLen = s.bitLen := rfl
@[simp] theorem State.reject_finalized (s : State) (code : ErrCode) :
    (s.reject code).finalized = s.finalized := rfl
@[simp] theorem State.reject_err (s : State) (code : ErrCode) :
    (s.reject code).err = true := rfl
@[simp] theorem State.reject_errCode (s : State) (code : ErrCode) :
    (s.reject code).errCode = errCodeBits code := rfl
@[simp] theorem State.reject_din (s : State) (code : ErrCode) :
    (s.reject code).din = s.din := rfl
@[simp] theorem State.reject_work (s : State) (code : ErrCode) :
    (s.reject code).work = s.work := rfl
@[simp] theorem State.reject_window (s : State) (code : ErrCode) :
    (s.reject code).window = s.window := rfl
@[simp] theorem State.reject_round (s : State) (code : ErrCode) :
    (s.reject code).round = s.round := rfl
@[simp] theorem State.reject_phase (s : State) (code : ErrCode) :
    (s.reject code).phase = s.phase := rfl
@[simp] theorem State.reject_host (s : State) (code : ErrCode) :
    (s.reject code).host = s.host := rfl
@[simp] theorem State.reject_responses (s : State) (code : ErrCode) :
    (s.reject code).responses = s.responses := rfl
@[simp] theorem State.reject_record (s : State) (code : ErrCode) :
    (s.reject code).record = s.record ++ [.rejected code] := rfl
@[simp] theorem State.reject_draws (s : State) (code : ErrCode) :
    (s.reject code).draws = s.draws := rfl
@[simp] theorem State.reject_bufDraw (s : State) (code : ErrCode) :
    (s.reject code).bufDraw = s.bufDraw := rfl
@[simp] theorem State.respond_h (s : State) (r : Response) :
    (s.respond r).h = s.h := rfl
@[simp] theorem State.respond_buf (s : State) (r : Response) :
    (s.respond r).buf = s.buf := rfl
@[simp] theorem State.respond_blockLen (s : State) (r : Response) :
    (s.respond r).blockLen = s.blockLen := rfl
@[simp] theorem State.respond_bitLen (s : State) (r : Response) :
    (s.respond r).bitLen = s.bitLen := rfl
@[simp] theorem State.respond_finalized (s : State) (r : Response) :
    (s.respond r).finalized = s.finalized := rfl
@[simp] theorem State.respond_err (s : State) (r : Response) :
    (s.respond r).err = s.err := rfl
@[simp] theorem State.respond_errCode (s : State) (r : Response) :
    (s.respond r).errCode = s.errCode := rfl
@[simp] theorem State.respond_din (s : State) (r : Response) :
    (s.respond r).din = s.din := rfl
@[simp] theorem State.respond_work (s : State) (r : Response) :
    (s.respond r).work = s.work := rfl
@[simp] theorem State.respond_window (s : State) (r : Response) :
    (s.respond r).window = s.window := rfl
@[simp] theorem State.respond_round (s : State) (r : Response) :
    (s.respond r).round = s.round := rfl
@[simp] theorem State.respond_phase (s : State) (r : Response) :
    (s.respond r).phase = s.phase := rfl
@[simp] theorem State.respond_host (s : State) (r : Response) :
    (s.respond r).host = s.host := rfl
@[simp] theorem State.respond_responses (s : State) (r : Response) :
    (s.respond r).responses = s.responses ++ [r] := rfl
@[simp] theorem State.respond_record (s : State) (r : Response) :
    (s.respond r).record = s.record := rfl
@[simp] theorem State.respond_draws (s : State) (r : Response) :
    (s.respond r).draws = s.draws := rfl
@[simp] theorem State.respond_bufDraw (s : State) (r : Response) :
    (s.respond r).bufDraw = s.bufDraw := rfl
@[simp] theorem State.takeBusError_h (s : State) :
    (s.takeBusError).h = s.h := rfl
@[simp] theorem State.takeBusError_buf (s : State) :
    (s.takeBusError).buf = s.buf := rfl
@[simp] theorem State.takeBusError_blockLen (s : State) :
    (s.takeBusError).blockLen = s.blockLen := rfl
@[simp] theorem State.takeBusError_bitLen (s : State) :
    (s.takeBusError).bitLen = s.bitLen := rfl
@[simp] theorem State.takeBusError_finalized (s : State) :
    (s.takeBusError).finalized = s.finalized := rfl
@[simp] theorem State.takeBusError_err (s : State) :
    (s.takeBusError).err = s.err := rfl
@[simp] theorem State.takeBusError_errCode (s : State) :
    (s.takeBusError).errCode = s.errCode := rfl
@[simp] theorem State.takeBusError_din (s : State) :
    (s.takeBusError).din = s.din := rfl
@[simp] theorem State.takeBusError_work (s : State) :
    (s.takeBusError).work = s.work := rfl
@[simp] theorem State.takeBusError_window (s : State) :
    (s.takeBusError).window = s.window := rfl
@[simp] theorem State.takeBusError_round (s : State) :
    (s.takeBusError).round = s.round := rfl
@[simp] theorem State.takeBusError_phase (s : State) :
    (s.takeBusError).phase = s.phase := rfl
@[simp] theorem State.takeBusError_host (s : State) :
    (s.takeBusError).host = movesAfterBusError s.host := rfl
@[simp] theorem State.takeBusError_responses (s : State) :
    (s.takeBusError).responses = s.responses ++ [.busError] := rfl
@[simp] theorem State.takeBusError_record (s : State) :
    (s.takeBusError).record = s.record ++ [.busError] := rfl
@[simp] theorem State.takeBusError_draws (s : State) :
    (s.takeBusError).draws = s.draws := rfl
@[simp] theorem State.takeBusError_bufDraw (s : State) :
    (s.takeBusError).bufDraw = s.bufDraw := rfl
@[simp] theorem State.platformReset_h (s : State) :
    (s.platformReset).h = iv := rfl
@[simp] theorem State.platformReset_buf (s : State) :
    (s.platformReset).buf = [] := rfl
@[simp] theorem State.platformReset_blockLen (s : State) :
    (s.platformReset).blockLen = 0 := rfl
@[simp] theorem State.platformReset_bitLen (s : State) :
    (s.platformReset).bitLen = 0 := rfl
@[simp] theorem State.platformReset_finalized (s : State) :
    (s.platformReset).finalized = false := rfl
@[simp] theorem State.platformReset_err (s : State) :
    (s.platformReset).err = false := rfl
@[simp] theorem State.platformReset_errCode (s : State) :
    (s.platformReset).errCode = 0 := rfl
@[simp] theorem State.platformReset_din (s : State) :
    (s.platformReset).din = 0 := rfl
@[simp] theorem State.platformReset_work (s : State) :
    (s.platformReset).work = Config.freeWorking s.draws := rfl
@[simp] theorem State.platformReset_window (s : State) :
    (s.platformReset).window = Config.freeWindow s.draws := rfl
@[simp] theorem State.platformReset_round (s : State) :
    (s.platformReset).round = Config.freeRound s.draws := rfl
@[simp] theorem State.platformReset_phase (s : State) :
    (s.platformReset).phase = .idle := rfl
@[simp] theorem State.platformReset_host (s : State) :
    (s.platformReset).host = s.host := rfl
@[simp] theorem State.platformReset_responses (s : State) :
    (s.platformReset).responses = s.responses := rfl
@[simp] theorem State.platformReset_record (s : State) :
    (s.platformReset).record = s.record := rfl
@[simp] theorem State.platformReset_draws (s : State) :
    (s.platformReset).draws = s.draws + 1 := rfl
@[simp] theorem State.platformReset_bufDraw (s : State) :
    (s.platformReset).bufDraw = s.bufDraw + 1 := rfl
@[simp] theorem State.initContext_h (s : State) :
    (s.initContext).h = iv := rfl
@[simp] theorem State.initContext_buf (s : State) :
    (s.initContext).buf = [] := rfl
@[simp] theorem State.initContext_blockLen (s : State) :
    (s.initContext).blockLen = 0 := rfl
@[simp] theorem State.initContext_bitLen (s : State) :
    (s.initContext).bitLen = 0 := rfl
@[simp] theorem State.initContext_finalized (s : State) :
    (s.initContext).finalized = false := rfl
@[simp] theorem State.initContext_err (s : State) :
    (s.initContext).err = false := rfl
@[simp] theorem State.initContext_errCode (s : State) :
    (s.initContext).errCode = 0 := rfl
@[simp] theorem State.initContext_din (s : State) :
    (s.initContext).din = s.din := rfl
@[simp] theorem State.initContext_work (s : State) :
    (s.initContext).work = s.work := rfl
@[simp] theorem State.initContext_window (s : State) :
    (s.initContext).window = s.window := rfl
@[simp] theorem State.initContext_round (s : State) :
    (s.initContext).round = s.round := rfl
@[simp] theorem State.initContext_phase (s : State) :
    (s.initContext).phase = s.phase := rfl
@[simp] theorem State.initContext_host (s : State) :
    (s.initContext).host = s.host := rfl
@[simp] theorem State.initContext_responses (s : State) :
    (s.initContext).responses = s.responses := rfl
@[simp] theorem State.initContext_record (s : State) :
    (s.initContext).record = s.record := rfl
@[simp] theorem State.initContext_draws (s : State) :
    (s.initContext).draws = s.draws := rfl
@[simp] theorem State.initContext_bufDraw (s : State) :
    (s.initContext).bufDraw = s.bufDraw + s.buf.length := rfl
@[simp] theorem State.appendByte_h (s : State) (x : Byte) :
    (s.appendByte x).h = s.h := rfl
@[simp] theorem State.appendByte_buf (s : State) (x : Byte) :
    (s.appendByte x).buf = s.buf.write s.blockLen.toNat x := rfl
@[simp] theorem State.appendByte_blockLen (s : State) (x : Byte) :
    (s.appendByte x).blockLen = s.blockLen + 1 := rfl
@[simp] theorem State.appendByte_bitLen (s : State) (x : Byte) :
    (s.appendByte x).bitLen = s.bitLen := rfl
@[simp] theorem State.appendByte_finalized (s : State) (x : Byte) :
    (s.appendByte x).finalized = s.finalized := rfl
@[simp] theorem State.appendByte_err (s : State) (x : Byte) :
    (s.appendByte x).err = s.err := rfl
@[simp] theorem State.appendByte_errCode (s : State) (x : Byte) :
    (s.appendByte x).errCode = s.errCode := rfl
@[simp] theorem State.appendByte_din (s : State) (x : Byte) :
    (s.appendByte x).din = s.din := rfl
@[simp] theorem State.appendByte_work (s : State) (x : Byte) :
    (s.appendByte x).work = s.work := rfl
@[simp] theorem State.appendByte_window (s : State) (x : Byte) :
    (s.appendByte x).window = s.window := rfl
@[simp] theorem State.appendByte_round (s : State) (x : Byte) :
    (s.appendByte x).round = s.round := rfl
@[simp] theorem State.appendByte_phase (s : State) (x : Byte) :
    (s.appendByte x).phase = s.phase := rfl
@[simp] theorem State.appendByte_host (s : State) (x : Byte) :
    (s.appendByte x).host = s.host := rfl
@[simp] theorem State.appendByte_responses (s : State) (x : Byte) :
    (s.appendByte x).responses = s.responses := rfl
@[simp] theorem State.appendByte_record (s : State) (x : Byte) :
    (s.appendByte x).record = s.record := rfl
@[simp] theorem State.appendByte_draws (s : State) (x : Byte) :
    (s.appendByte x).draws = s.draws := rfl
@[simp] theorem State.appendByte_bufDraw (s : State) (x : Byte) :
    (s.appendByte x).bufDraw = s.bufDraw := rfl
@[simp] theorem State.countBlock_h (s : State) :
    (s.countBlock).h = s.h := rfl
@[simp] theorem State.countBlock_buf (s : State) :
    (s.countBlock).buf = s.buf := rfl
@[simp] theorem State.countBlock_blockLen (s : State) :
    (s.countBlock).blockLen = 0 := rfl
@[simp] theorem State.countBlock_bitLen (s : State) :
    (s.countBlock).bitLen = s.bitLen + 512 := rfl
@[simp] theorem State.countBlock_finalized (s : State) :
    (s.countBlock).finalized = s.finalized := rfl
@[simp] theorem State.countBlock_err (s : State) :
    (s.countBlock).err = s.err := rfl
@[simp] theorem State.countBlock_errCode (s : State) :
    (s.countBlock).errCode = s.errCode := rfl
@[simp] theorem State.countBlock_din (s : State) :
    (s.countBlock).din = s.din := rfl
@[simp] theorem State.countBlock_work (s : State) :
    (s.countBlock).work = s.work := rfl
@[simp] theorem State.countBlock_window (s : State) :
    (s.countBlock).window = s.window := rfl
@[simp] theorem State.countBlock_round (s : State) :
    (s.countBlock).round = s.round := rfl
@[simp] theorem State.countBlock_phase (s : State) :
    (s.countBlock).phase = s.phase := rfl
@[simp] theorem State.countBlock_host (s : State) :
    (s.countBlock).host = s.host := rfl
@[simp] theorem State.countBlock_responses (s : State) :
    (s.countBlock).responses = s.responses := rfl
@[simp] theorem State.countBlock_record (s : State) :
    (s.countBlock).record = s.record := rfl
@[simp] theorem State.countBlock_draws (s : State) :
    (s.countBlock).draws = s.draws := rfl
@[simp] theorem State.countBlock_bufDraw (s : State) :
    (s.countBlock).bufDraw = s.bufDraw := rfl
@[simp] theorem State.seal_h (s : State) :
    (s.seal).h = s.h := rfl
@[simp] theorem State.seal_buf (s : State) :
    (s.seal).buf = s.buf := rfl
@[simp] theorem State.seal_blockLen (s : State) :
    (s.seal).blockLen = 0 := rfl
@[simp] theorem State.seal_bitLen (s : State) :
    (s.seal).bitLen = s.messageBits := rfl
@[simp] theorem State.seal_finalized (s : State) :
    (s.seal).finalized = true := rfl
@[simp] theorem State.seal_err (s : State) :
    (s.seal).err = s.err := rfl
@[simp] theorem State.seal_errCode (s : State) :
    (s.seal).errCode = s.errCode := rfl
@[simp] theorem State.seal_din (s : State) :
    (s.seal).din = s.din := rfl
@[simp] theorem State.seal_work (s : State) :
    (s.seal).work = s.work := rfl
@[simp] theorem State.seal_window (s : State) :
    (s.seal).window = s.window := rfl
@[simp] theorem State.seal_round (s : State) :
    (s.seal).round = s.round := rfl
@[simp] theorem State.seal_phase (s : State) :
    (s.seal).phase = s.phase := rfl
@[simp] theorem State.seal_host (s : State) :
    (s.seal).host = s.host := rfl
@[simp] theorem State.seal_responses (s : State) :
    (s.seal).responses = s.responses := rfl
@[simp] theorem State.seal_record (s : State) :
    (s.seal).record = s.record := rfl
@[simp] theorem State.seal_draws (s : State) :
    (s.seal).draws = s.draws := rfl
@[simp] theorem State.seal_bufDraw (s : State) :
    (s.seal).bufDraw = s.bufDraw := rfl
@[simp] theorem State.goto_h (s : State) (p : Phase) :
    (s.goto p).h = s.h := rfl
@[simp] theorem State.goto_buf (s : State) (p : Phase) :
    (s.goto p).buf = s.buf := rfl
@[simp] theorem State.goto_blockLen (s : State) (p : Phase) :
    (s.goto p).blockLen = s.blockLen := rfl
@[simp] theorem State.goto_bitLen (s : State) (p : Phase) :
    (s.goto p).bitLen = s.bitLen := rfl
@[simp] theorem State.goto_finalized (s : State) (p : Phase) :
    (s.goto p).finalized = s.finalized := rfl
@[simp] theorem State.goto_err (s : State) (p : Phase) :
    (s.goto p).err = s.err := rfl
@[simp] theorem State.goto_errCode (s : State) (p : Phase) :
    (s.goto p).errCode = s.errCode := rfl
@[simp] theorem State.goto_din (s : State) (p : Phase) :
    (s.goto p).din = s.din := rfl
@[simp] theorem State.goto_work (s : State) (p : Phase) :
    (s.goto p).work = s.work := rfl
@[simp] theorem State.goto_window (s : State) (p : Phase) :
    (s.goto p).window = s.window := rfl
@[simp] theorem State.goto_round (s : State) (p : Phase) :
    (s.goto p).round = s.round := rfl
@[simp] theorem State.goto_phase (s : State) (p : Phase) :
    (s.goto p).phase = p := rfl
@[simp] theorem State.goto_host (s : State) (p : Phase) :
    (s.goto p).host = s.host := rfl
@[simp] theorem State.goto_responses (s : State) (p : Phase) :
    (s.goto p).responses = s.responses := rfl
@[simp] theorem State.goto_record (s : State) (p : Phase) :
    (s.goto p).record = s.record := rfl
@[simp] theorem State.goto_draws (s : State) (p : Phase) :
    (s.goto p).draws = s.draws := rfl
@[simp] theorem State.goto_bufDraw (s : State) (p : Phase) :
    (s.goto p).bufDraw = s.bufDraw := rfl

end Sys2Proof.Machine
end

