-- ==== Sys2Proof/Laws/Memory.lean ====
section
/-! SUPPORT. Reading and writing `Buf`: a read after a write, and the canonical form that every write keeps. -/

namespace Sys2Proof.Machine

theorem Memory.lookup_write (m : Memory) (i j : Nat) (x : Byte) :
    (m.write i x).lookup j = if j = i then some x else m.lookup j := by
  induction m with
  | nil => simp [Memory.write, Memory.lookup, eq_comm]
  | cons c rest ih =>
    obtain ⟨k, v⟩ := c
    simp only [Memory.write]
    split
    · simp [Memory.lookup, eq_comm]
    · split
      · subst_vars; simp only [Memory.lookup]; grind
      · simp only [Memory.lookup, ih]; grind

theorem Memory.lookup_writeList (xs : List Byte) (m : Memory) (i j : Nat) :
    (m.writeList i xs).lookup j =
      if i ≤ j ∧ j < i + xs.length then xs[j - i]? else m.lookup j := by
  induction xs generalizing m i with
  | nil => simp only [Memory.writeList, List.length_nil]; grind
  | cons x xs ih =>
    simp only [Memory.writeList, ih, Memory.lookup_write, List.length_cons]
    grind

/-- A write below 64 keeps the canonical form from any lower bound at or below the index. -/
theorem Memory.wfFrom_write (m : Memory) (lo i : Nat) (x : Byte) (hlo : lo ≤ i) (hi : i < 64)
    (h : Memory.wfFrom lo m = true) : Memory.wfFrom lo (m.write i x) = true := by
  induction m generalizing lo with
  | nil => simp [Memory.write, Memory.wfFrom, hlo, hi]
  | cons c rest ih =>
    obtain ⟨k, v⟩ := c
    simp only [Memory.wfFrom, Bool.and_eq_true, decide_eq_true_eq] at h
    simp only [Memory.write]
    split
    · simp only [Memory.wfFrom, Bool.and_eq_true, decide_eq_true_eq]; grind
    · split
      · simp only [Memory.wfFrom, Bool.and_eq_true, decide_eq_true_eq]; grind
      · simp only [Memory.wfFrom, Bool.and_eq_true, decide_eq_true_eq]
        exact ⟨h.1, ih (k + 1) (by omega) h.2⟩

/-- A write at an index of `Buf` keeps its canonical form. -/
theorem Memory.wf_write (m : Memory) (i : Nat) (x : Byte) (hi : i < 64) (h : m.wf = true) :
    (m.write i x).wf = true :=
  Memory.wfFrom_write m 0 i x (Nat.zero_le i) hi h

/-- Writes that end at or below index 64 keep the canonical form. -/
theorem Memory.wf_writeList (xs : List Byte) (m : Memory) (i : Nat) (hi : i + xs.length ≤ 64)
    (h : m.wf = true) : (m.writeList i xs).wf = true := by
  induction xs generalizing m i with
  | nil => exact h
  | cons x xs ih =>
    simp only [List.length_cons] at hi
    exact ih _ _ (by omega) (Memory.wf_write m i x (by omega) h)

theorem State.reset_buf_wf : State.reset.buf.wf = true := rfl

theorem State.platformReset_buf_wf (s : State) : s.platformReset.buf.wf = true := rfl

theorem State.forgetBuf_buf_wf (s : State) : s.forgetBuf.buf.wf = true := rfl

/-- Forgetting `Buf` twice is forgetting it once. -/
theorem State.forgetBuf_forgetBuf (s : State) : s.forgetBuf.forgetBuf = s.forgetBuf := rfl

/-- A write behind every listed index puts its cell at the end. -/
theorem Memory.write_end (m : Memory) (i : Nat) (x : Byte) (h : ∀ c ∈ m, c.1 < i) : m.write i x = m ++ [(i, x)] := by
  induction m with
  | nil => rfl
  | cons c rest ih =>
    obtain ⟨k, v⟩ := c
    have hk : k < i := h (k, v) List.mem_cons_self
    simp only [Memory.write, if_neg (show ¬ i < k by omega), if_neg (show ¬ i = k by omega), List.cons_append]
    rw [ih fun c hc => h c (List.mem_cons_of_mem _ hc)]

/-- A read depends on `Buf` and the draw of its unwritten bytes alone. -/
theorem State.readBuf_congr {s t : State} (hb : t.buf = s.buf) (hd : t.bufDraw = s.bufDraw) (j : Nat) :
    t.readBuf j = s.readBuf j := by
  simp only [State.readBuf, hb, hd]

theorem State.readBuf_writeBuf (s : State) (i j : Nat) (xs : List Byte) :
    (s.writeBuf i xs).readBuf j =
      if i ≤ j ∧ j < i + xs.length then xs.getD (j - i) 0 else s.readBuf j := by
  simp only [State.readBuf, State.writeBuf_buf, State.writeBuf_bufDraw, Memory.lookup_writeList]
  split
  · rw [List.getElem?_eq_getElem (by omega)]
    simp [List.getD_eq_getElem?_getD, List.getElem?_eq_getElem (show j - i < xs.length by omega)]
  · rfl

theorem State.readBuf_appendByte (s : State) (x : Byte) (j : Nat) :
    (s.appendByte x).readBuf j = if j = s.blockLen.toNat then x else s.readBuf j := by
  simp only [State.readBuf, State.appendByte_buf, State.appendByte_bufDraw, Memory.lookup_write]
  split <;> rfl

/-- Once `Buf` is forgotten, every index reads as a free value. -/
theorem State.readBuf_forgetBuf (s : State) (j : Nat) :
    s.forgetBuf.readBuf j = Config.unwrittenByte (s.bufDraw + s.buf.length) j := rfl

theorem State.readBuf_compressBuf (s : State) (j : Nat) : s.compressBuf.readBuf j = s.forgetBuf.readBuf j := rfl

theorem State.readBuf_countBlock (s : State) (j : Nat) : s.countBlock.readBuf j = s.readBuf j := rfl

theorem State.readBuf_seal (s : State) (j : Nat) : s.seal.readBuf j = s.readBuf j := rfl

theorem State.block_length (s : State) : s.block.length = 64 := by simp [State.block]

theorem State.block_getD (s : State) (j : Nat) (hj : j < 64) : s.block.getD j 0 = s.readBuf j := by
  simp [State.block, List.getD_eq_getElem?_getD, hj]

end Sys2Proof.Machine
end

