-- ==== Sys2Proof/Laws/Ops.lean ====
section
/-! SUPPORT. What each shared operation can do, said once: `Absorb`, the UPDATE checks, the padding, the commands, the
service of a host move, a step. Cite these instead of unfolding the operations. -/

namespace Sys2Proof.Machine

open Host (Outcome)

/-! ## Absorb -/

/-- `Absorb` answers exactly when `block_len` is an index of `Buf`. -/
theorem absorb_eq_next {x : Byte} {s t : State} :
    absorb x s = .next t ↔ s.blockLen.toNat < 64 ∧ t = (s.appendByte x).closeIfFull := by
  unfold absorb
  split <;> simp [*, eq_comm]

theorem absorb_fault {x : Byte} {s : State} (h : 64 ≤ s.blockLen.toNat) :
    absorb x s = .fault .bufferIndex := by
  unfold absorb
  rw [if_neg (by omega)]

/-- `block_len + 1`, as a natural, when it is an index. -/
theorem State.appendByte_blockLen_toNat (s : State) (x : Byte) (h : s.blockLen.toNat < 64) :
    (s.appendByte x).blockLen.toNat = s.blockLen.toNat + 1 := by
  rw [State.appendByte_blockLen, BitVec.toNat_add, show BitVec.toNat (1 : BitVec 7) = 1 from rfl]
  omega

/-- Below 63 the appended byte does not fill the block. -/
theorem State.appendByte_not_full {s : State} (x : Byte) (h : s.blockLen.toNat < 63) :
    (s.appendByte x).closeIfFull = s.appendByte x := by
  have := s.appendByte_blockLen_toNat x (by omega)
  unfold State.closeIfFull
  rw [if_neg]
  intro hc
  rw [hc] at this
  simp at this
  omega

/-- At 63 it fills it: the block is compressed and counted. -/
theorem State.appendByte_full {s : State} (x : Byte) (h : s.blockLen.toNat = 63) :
    (s.appendByte x).closeIfFull = (s.appendByte x).compressBuf.countBlock := by
  have := s.appendByte_blockLen_toNat x (by omega)
  unfold State.closeIfFull
  rw [if_pos]
  apply BitVec.eq_of_toNat_eq
  rw [this, h]
  rfl

/-- What closing a full block leaves alone. -/
theorem State.closeIfFull_frame (s : State) :
    s.closeIfFull.finalized = s.finalized ∧ KeepsErrors s s.closeIfFull ∧ KeepsHostSide s s.closeIfFull := by
  unfold State.closeIfFull
  split <;> exact ⟨rfl, ⟨rfl, rfl, rfl⟩, ⟨rfl, rfl, rfl, rfl⟩⟩

/-- What absorbing a byte leaves alone, beside `Buf`. -/
theorem absorb_frame {x : Byte} {s t : State} (h : absorb x s = .next t) :
    t.finalized = s.finalized ∧ KeepsErrors s t ∧ KeepsHostSide s t := by
  obtain ⟨-, rfl⟩ := absorb_eq_next.1 h
  obtain ⟨hf, ⟨h1, h2, h3⟩, ⟨h4, h5, h6, h7⟩⟩ := (s.appendByte x).closeIfFull_frame
  exact ⟨hf, ⟨h1, h2, h3⟩, ⟨h4, h5, h6, h7⟩⟩

/-- What `Buf` reads after a byte that leaves room: the byte at its index, the rest as before. -/
theorem absorb_readBuf {x : Byte} {s t : State} (hl : s.blockLen.toNat < 63) (h : absorb x s = .next t) (j : Nat) :
    t.readBuf j = if j = s.blockLen.toNat then x else s.readBuf j := by
  obtain ⟨-, rfl⟩ := absorb_eq_next.1 h
  rw [State.appendByte_not_full x hl, State.readBuf_appendByte]

/-- After `Absorb` the block is never full, and the canonical form of `Buf` is kept. -/
theorem absorb_blockLen_le {x : Byte} {s t : State} (h : absorb x s = .next t) : t.blockLen.toNat ≤ 63 := by
  obtain ⟨hl, rfl⟩ := absorb_eq_next.1 h
  by_cases hb : s.blockLen.toNat = 63
  · rw [State.appendByte_full x hb]; simp
  · rw [State.appendByte_not_full x (by omega), State.appendByte_blockLen_toNat s x hl]; omega

theorem absorb_wf {x : Byte} {s t : State} (h : absorb x s = .next t) (hw : s.buf.wf = true) :
    t.buf.wf = true := by
  obtain ⟨hl, rfl⟩ := absorb_eq_next.1 h
  by_cases hb : s.blockLen.toNat = 63
  · rw [State.appendByte_full x hb]; rfl
  · rw [State.appendByte_not_full x (by omega)]; exact Memory.wf_write _ _ _ hl hw

@[simp] theorem absorbAll_nil (s : State) : absorbAll [] s = .next s := rfl

/-- Absorbing a list is absorbing its first byte and then the others. -/
theorem absorbAll_cons_eq_next {x : Byte} {xs : List Byte} {s t : State} :
    absorbAll (x :: xs) s = .next t ↔ ∃ u, absorb x s = .next u ∧ absorbAll xs u = .next t := by
  simp only [absorbAll]
  cases absorb x s <;> simp

/-- A property that each `Absorb` keeps is kept by absorbing a list. -/
theorem absorbAll_induction {P : State → Prop} (hP : ∀ x s t, P s → absorb x s = .next t → P t)
    (xs : List Byte) {s t : State} (hs : P s) (h : absorbAll xs s = .next t) : P t := by
  induction xs generalizing s with
  | nil => cases h; exact hs
  | cons x xs ih =>
    obtain ⟨u, hu, ht⟩ := absorbAll_cons_eq_next.1 h
    exact ih (hP x s u hs hu) ht

/-- Absorbing completes whenever `block_len` is an index of `Buf`. -/
theorem absorbAll_completes (xs : List Byte) (s : State) (h : s.blockLen.toNat ≤ 63) :
    ∃ t, absorbAll xs s = .next t := by
  induction xs generalizing s with
  | nil => exact ⟨s, rfl⟩
  | cons x xs ih =>
    have hx : absorb x s = .next (s.appendByte x).closeIfFull := absorb_eq_next.2 ⟨by omega, rfl⟩
    obtain ⟨t, ht⟩ := ih _ (absorb_blockLen_le hx)
    exact ⟨t, absorbAll_cons_eq_next.2 ⟨_, hx, ht⟩⟩

/-- What absorbing bytes leaves alone. -/
theorem absorbAll_frame (xs : List Byte) {s t : State} (h : absorbAll xs s = .next t) :
    t.finalized = s.finalized ∧ KeepsErrors s t ∧ KeepsHostSide s t := by
  refine absorbAll_induction (P := fun u => u.finalized = s.finalized ∧ KeepsErrors s u ∧ KeepsHostSide s u)
    ?_ xs ⟨rfl, ⟨rfl, rfl, rfl⟩, ⟨rfl, rfl, rfl, rfl⟩⟩ h
  rintro x u v ⟨hf, he, hk⟩ huv
  obtain ⟨hf', he', hk'⟩ := absorb_frame huv
  exact ⟨hf'.trans hf, ⟨he'.1.trans he.1, he'.2.trans he.2, he'.3.trans he.3⟩,
    ⟨hk'.1.trans hk.1, hk'.2.trans hk.2, hk'.3.trans hk.3, hk'.4.trans hk.4⟩⟩

/-- Absorbing bytes never refuses. -/
theorem absorbAll_not_refused (xs : List Byte) (s : State) (r : Refusal) : absorbAll xs s ≠ .refused r := by
  induction xs generalizing s with
  | nil => simp [absorbAll]
  | cons x xs ih =>
    simp only [absorbAll]
    unfold absorb
    split <;> grind

/-! ## Commands -/

/-- The three ways an UPDATE answers. -/
theorem update_eq_next {xs : List Byte} {s t : State} :
    update xs s = .next t ↔
      (s.finalized = true ∧ t = s.reject .contextMisuse) ∨
      (s.finalized = false ∧ lengthOK s xs.length = false ∧ t = s.reject .lengthExceeded) ∨
      (s.finalized = false ∧ lengthOK s xs.length = true ∧ absorbAll xs s = .next t) := by
  unfold update
  cases s.finalized <;> cases lengthOK s xs.length <;> simp [eq_comm]

theorem update_ok {xs : List Byte} {s : State} (hf : s.finalized = false)
    (hl : s.bitLen.toNat + 8 * (s.blockLen.toNat + xs.length) < 2 ^ 64) :
    update xs s = absorbAll xs s := by
  have hl' : lengthOK s xs.length = true := decide_eq_true hl
  simp [update, hf, hl']

/-- FINALIZE's two ways to answer. -/
theorem execFinalize_eq_next {s t : State} :
    execFinalize s = .next t ↔
      (s.finalized = true ∧ t = s.reject .contextMisuse) ∨
      (s.finalized = false ∧ s.blockLen.toNat < 64 ∧ t = s.pad.writeLength.compressBuf.seal) := by
  unfold execFinalize
  cases s.finalized
  · by_cases h : s.blockLen.toNat < 64 <;> simp [h, eq_comm]
  · simp [eq_comm]

theorem execUpdateDin_ok {n : BitVec 3} (s : State) (hn : n.toNat ≤ 4) :
    execUpdateDin n s = update (dinBytes s.din n) s := if_neg (by omega)

theorem dinBytes_length (din : Word) {n : BitVec 3} (hn : n.toNat ≤ 4) : (dinBytes din n).length = n.toNat := by
  simp only [dinBytes, be32inv, List.length_take, List.length_cons, List.length_nil]
  omega

/-- Everything a command can do when it answers: INIT, a rejection, an absorption, or a finalization. -/
theorem exec_cases {i : Instr} {s t : State} (h : exec i s = .next t) :
    (i = .init ∧ t = s.initContext) ∨
    (i ≠ .init ∧ ∃ code, t = s.reject code ∧
      ((code = .contextMisuse ∧ s.finalized = true) ∨ code = .illegalCmd ∨
        (code = .lengthExceeded ∧ s.finalized = false ∧ i ≠ .finalize))) ∨
    (isUpdate i = true ∧ s.finalized = false ∧ lengthOK s (absorbedBytes s.din i).length = true ∧
      absorbAll (absorbedBytes s.din i) s = .next t) ∨
    (i = .finalize ∧ s.finalized = false ∧ s.blockLen.toNat < 64 ∧ t = s.pad.writeLength.compressBuf.seal) := by
  cases i with
  | init => exact .inl ⟨rfl, by cases h; rfl⟩
  | updateByte b =>
    rcases update_eq_next.1 h with ⟨h1, h2⟩ | ⟨h1, h2, h3⟩ | ⟨h1, h2, h3⟩
    · exact .inr (.inl ⟨by simp, _, h2, .inl ⟨rfl, h1⟩⟩)
    · exact .inr (.inl ⟨by simp, _, h3, .inr (.inr ⟨rfl, h1, by simp⟩)⟩)
    · exact .inr (.inr (.inl ⟨rfl, h1, h2, h3⟩))
  | updateDin n =>
    by_cases hn : 4 < n.toNat
    · simp only [exec, execUpdateDin, if_pos hn] at h
      cases h
      exact .inr (.inl ⟨by simp, _, rfl, .inr (.inl rfl)⟩)
    · simp only [exec, execUpdateDin, if_neg hn] at h
      rcases update_eq_next.1 h with ⟨h1, h2⟩ | ⟨h1, h2, h3⟩ | ⟨h1, h2, h3⟩
      · exact .inr (.inl ⟨by simp, _, h2, .inl ⟨rfl, h1⟩⟩)
      · exact .inr (.inl ⟨by simp, _, h3, .inr (.inr ⟨rfl, h1, by simp⟩)⟩)
      · exact .inr (.inr (.inl ⟨decide_eq_true (by omega), h1, h2, h3⟩))
  | finalize =>
    rcases execFinalize_eq_next.1 h with ⟨h1, h2⟩ | ⟨h1, h2, h3⟩
    · exact .inr (.inl ⟨by simp, _, h2, .inl ⟨rfl, h1⟩⟩)
    · exact .inr (.inr (.inr ⟨rfl, h1, h2, h3⟩))

/-- An open context on which the guards hold lets an UPDATE through. -/
theorem exec_update {i : Instr} {s : State} (hi : isUpdate i = true) (hf : s.finalized = false)
    (hl : s.bitLen.toNat + 8 * (s.blockLen.toNat + (absorbedBytes s.din i).length) < 2 ^ 64) :
    exec i s = absorbAll (absorbedBytes s.din i) s := by
  cases i with
  | init => cases hi
  | updateByte b => exact update_ok hf hl
  | updateDin n =>
    have hn : n.toNat ≤ 4 := of_decide_eq_true hi
    exact (execUpdateDin_ok s hn).trans (update_ok hf hl)
  | finalize => cases hi

/-- FINALIZE changes none of these. -/
theorem State.finalize_frame (s : State) :
    KeepsErrors s s.pad.writeLength.compressBuf.seal ∧ KeepsHostSide s s.pad.writeLength.compressBuf.seal := by
  unfold State.pad State.padRoom State.padNoRoom State.zeroBuf State.writeLength State.mark80
  split <;> exact ⟨⟨by simp, by simp, by simp⟩, ⟨by simp, by simp, by simp, by simp⟩⟩

/-- The padding leaves the counters the length is computed from. -/
theorem State.pad_frame (s : State) :
    s.pad.blockLen = s.blockLen ∧ s.pad.bitLen = s.bitLen ∧ s.pad.finalized = s.finalized := by
  unfold State.pad
  split <;> exact ⟨rfl, rfl, rfl⟩

/-- `L`, as a natural, when it fits (R153). -/
theorem State.messageBits_toNat (s : State) (h : s.bitLen.toNat + 8 * s.blockLen.toNat < 2 ^ 64) :
    s.messageBits.toNat = s.bitLen.toNat + 8 * s.blockLen.toNat := by
  simp only [State.messageBits, BitVec.toNat_add, BitVec.toNat_ofNat]
  omega

theorem be64inv_length (v : BitVec 64) : (be64inv v).length = 8 := rfl

/-- The padding steps, as the writes to `Buf` that they are. -/
theorem State.mark80_eq (s : State) : s.mark80 = s.writeBuf s.blockLen.toNat [0x80] := rfl

theorem State.zeroBuf_eq (s : State) (a b : Nat) :
    s.zeroBuf a b = s.writeBuf a (List.replicate (b - a) 0x00) := rfl

theorem State.padRoom_eq (s : State) :
    s.padRoom = s.writeBuf (s.blockLen.toNat + 1) (List.replicate (56 - (s.blockLen.toNat + 1)) 0x00) := rfl

theorem State.padNoRoom_eq (s : State) :
    s.padNoRoom = ((s.writeBuf (s.blockLen.toNat + 1)
      (List.replicate (64 - (s.blockLen.toNat + 1)) 0x00)).compressBuf).writeBuf 0 (List.replicate 56 0x00) := rfl

theorem State.writeLength_eq (s : State) : s.writeLength = s.writeBuf 56 (be64inv s.messageBits) := rfl

/-- Writes inside `Buf` keep its canonical form. -/
theorem State.writeBuf_wf (s : State) (i : Nat) (xs : List Byte) (hi : i + xs.length ≤ 64)
    (h : s.buf.wf = true) : (s.writeBuf i xs).buf.wf = true :=
  Memory.wf_writeList xs s.buf i hi h

/-- The padding keeps the canonical form of `Buf`. -/
theorem State.pad_wf (s : State) (hb : s.blockLen.toNat < 64) (h : s.buf.wf = true) : s.pad.buf.wf = true := by
  have h80 : s.mark80.buf.wf = true := State.writeBuf_wf s _ [0x80] (by simp; omega) h
  unfold State.pad
  split
  · rw [State.padRoom_eq]
    exact State.writeBuf_wf _ _ _ (by simp [State.mark80_eq]; omega) h80
  · rw [State.padNoRoom_eq]
    exact State.writeBuf_wf _ _ _ (by simp) rfl

/-- After FINALIZE no byte of `Buf` is fixed, and its canonical form holds. -/
theorem State.finalize_buf (s : State) : s.pad.writeLength.compressBuf.seal.buf = [] := rfl

theorem State.finalize_wf (s : State) : s.pad.writeLength.compressBuf.seal.buf.wf = true := rfl

/-! ## Host moves and steps -/

theorem answerOk_eq_next {o : Outcome State Fault Refusal} {t : State} :
    answerOk o = .next t ↔ ∃ u, o = .next u ∧ t = u.respond .ok := by
  cases o <;> simp [answerOk, eq_comm]

theorem executeWord_ok {w : Word} {i : Instr} (s : State) (h : decode w = .ok i) :
    executeWord w s = exec i s := by simp only [executeWord, h]

theorem executeWord_error {w : Word} {e : Illegal} (s : State) (h : decode w = .error e) :
    executeWord w s = .next (s.reject .illegalCmd) := by simp only [executeWord, h]

/-- Everything a served move can do when it is answered. -/
theorem serve_cases {m : HostMove} {s t : State} (h : serve m s = .next t) :
    (m = .reset ∧ t = s.platformReset) ∨
    t = s.takeBusError ∨
    (∃ v, t = s.respond (.data v)) ∨
    (∃ w u, m = .write 0x00 4 w ∧ executeWord w s = .next u ∧ t = u.respond .ok) ∨
    (∃ v, m = .write 0x04 4 v ∧ t = State.respond { s with din := v } .ok) ∨
    t = s.respond .ok := by
  cases m with
  | reset => cases h; exact .inl ⟨rfl, rfl⟩
  | read off n =>
    simp only [serve] at h
    cases ht : target off n <;> simp only [ht] at h <;> cases h
    · exact .inr (.inl rfl)
    · exact .inr (.inr (.inl ⟨_, rfl⟩))
  | write off n v =>
    simp only [serve] at h
    cases ht : target off n with
    | outside => simp [ht] at h
    | busError => simp only [ht] at h; cases h; exact .inr (.inl rfl)
    | reg r =>
      simp only [ht] at h
      have hreg : n = 4 ∧ off % 4 = 0 ∧ r = regAt off := by
        unfold target at ht
        split at ht
        · cases ht
        · split at ht
          · cases ht
          · cases ht; grind
      obtain ⟨rfl, hoff, rfl⟩ := hreg
      obtain ⟨u, hu, rfl⟩ := answerOk_eq_next.1 h
      have hq : ∀ k, off / 4 = k → off = 4 * k := fun k hk => by omega
      have hcmd : regAt off = .cmd → off = 0x00 := by
        unfold regAt; split <;> simp_all
      have hdin : regAt off = .din → off = 0x04 := by
        unfold regAt; split <;> simp_all
      cases hr : regAt off <;> simp only [hr, writeReg] at hu
      case cmd => obtain rfl := hcmd hr; exact .inr (.inr (.inr (.inl ⟨v, u, rfl, hu, rfl⟩)))
      case din => obtain rfl := hdin hr; cases hu; exact .inr (.inr (.inr (.inr (.inl ⟨v, rfl, rfl⟩))))
      all_goals cases hu; exact .inr (.inr (.inr (.inr (.inr rfl))))

/-- A move that gets the `BusError` response does nothing else, whatever it would read or write. -/
theorem serve_busError {m : HostMove} (s : State) (h : isBusError m = true) : serve m s = .next s.takeBusError := by
  cases m with
  | reset => cases h
  | read off n => simp only [serve, show target off n = .busError from of_decide_eq_true h]
  | write off n v => simp only [serve, show target off n = .busError from of_decide_eq_true h]

/-- After any other answer the host goes on with its next access. -/
theorem hostGoesOn_of_no_busError {m : HostMove} (h : isBusError m = false) : hostGoesOn m = true := by
  simp [hostGoesOn, h]

/-- The host goes on after an aligned 32-bit access inside the window. -/
theorem hostGoesOn_word (off : Nat) (v : Word) (h : off < 64) (ha : off % 4 = 0) :
    hostGoesOn (.read off 4) = true ∧ hostGoesOn (.write off 4 v) = true := by
  have ht : target off 4 = .reg (regAt off) := by unfold target; rw [if_neg (by omega), if_neg (by omega)]
  constructor <;> exact hostGoesOn_of_no_busError (by simp [isBusError, ht])

/-- In IDLE a step is the service of the host's next move. -/
theorem step_idle {s : State} (h : s.phase = .idle) : step s = serveNext s := by
  unfold step; rw [h]

/-- A step from IDLE that answers: nothing was pending, or the first move was served. -/
theorem step_cases {s t : State} (hi : s.phase = .idle) (h : step s = .next t) :
    (s.host = [] ∧ t = s) ∨ ∃ m rest, s.host = m :: rest ∧ serve m { s with host := rest } = .next t := by
  rw [step_idle hi] at h
  unfold serveNext at h
  split at h
  · cases h; exact .inl ⟨‹_›, rfl⟩
  · exact .inr ⟨_, _, ‹_›, h⟩

/-- The rejection of an executed word answers, whatever its outcome is otherwise. -/
theorem executeWord_cases {w : Word} {s u : State} (h : executeWord w s = .next u) :
    ((∃ e, decode w = .error e) ∧ u = s.reject .illegalCmd) ∨ ∃ i, decode w = .ok i ∧ exec i s = .next u := by
  cases hd : decode w with
  | error e => rw [executeWord_error s hd] at h; cases h; exact .inl ⟨⟨e, rfl⟩, rfl⟩
  | ok i => rw [executeWord_ok s hd] at h; exact .inr ⟨i, rfl, h⟩

end Sys2Proof.Machine
end

