-- ==== Sys2Proof/Laws/Absorb.lean ====
section
/-! SUPPORT. What absorbing a list of bytes does: while the block has room, when it fills exactly, and over any length. -/

namespace Sys2Proof.Machine

open Host (Outcome)

theorem absorbAll_append (xs ys : List Byte) (s : State) :
    absorbAll (xs ++ ys) s =
      match absorbAll xs s with
      | .next t => absorbAll ys t
      | .fault r => .fault r
      | .refused r => .refused r := by
  induction xs generalizing s with
  | nil => rfl
  | cons x xs ih =>
    simp only [List.cons_append, absorbAll]
    cases absorb x s <;> simp [ih]

theorem absorbAll_append_next {xs ys : List Byte} {s u : State} (h : absorbAll xs s = .next u) :
    absorbAll (xs ++ ys) s = absorbAll ys u := by rw [absorbAll_append, h]

/-- A block's bytes given by what each index reads. -/
theorem State.block_eq_map {s : State} {f : Nat → Byte} (h : ∀ a, a < 64 → s.readBuf a = f a) :
    s.block = (List.range 64).map f :=
  List.map_congr_left fun a ha => h a (List.mem_range.1 ha)

/-- Bytes that leave room in the block: they stand in `Buf` from `block_len` on, and only `block_len` moves. -/
theorem absorbAll_room (xs : List Byte) (s : State) (hl : s.blockLen.toNat + xs.length < 64) :
    ∃ t, absorbAll xs s = .next t ∧ t.blockLen.toNat = s.blockLen.toNat + xs.length ∧
      t.h = s.h ∧ t.bitLen = s.bitLen ∧ KeepsInternal s t ∧
      ∀ a, t.readBuf a =
        if s.blockLen.toNat ≤ a ∧ a < s.blockLen.toNat + xs.length then xs.getD (a - s.blockLen.toNat) 0
        else s.readBuf a := by
  induction xs generalizing s with
  | nil => exact ⟨s, rfl, rfl, rfl, rfl, ⟨rfl, rfl, rfl, rfl⟩, fun a => by rw [if_neg (by simp)]⟩
  | cons x xs ih =>
    simp only [List.length_cons] at hl
    have hx : absorb x s = .next (s.appendByte x) := by
      rw [absorb_eq_next.2 ⟨by omega, rfl⟩, State.appendByte_not_full x (by omega)]
    have hb := s.appendByte_blockLen_toNat x (by omega)
    obtain ⟨t, ht, h1, h2, h3, ⟨i1, i2, i3, i4⟩, h4⟩ := ih (s.appendByte x) (by omega)
    refine ⟨t, absorbAll_cons_eq_next.2 ⟨_, hx, ht⟩, by rw [h1, hb, List.length_cons]; omega, h2, h3,
      ⟨i1, i2, i3, i4⟩, fun a => ?_⟩
    rw [h4, hb, State.readBuf_appendByte, List.length_cons]
    by_cases ha : a = s.blockLen.toNat
    · subst ha
      rw [if_neg (by omega), if_pos rfl, if_pos (by omega)]
      simp
    · rw [if_neg ha]
      by_cases hr : s.blockLen.toNat + 1 ≤ a ∧ a < s.blockLen.toNat + 1 + xs.length
      · rw [if_pos hr, if_pos (by omega), show a - s.blockLen.toNat = (a - (s.blockLen.toNat + 1)) + 1 by omega,
          List.getD_cons_succ]
      · rw [if_neg hr, if_neg (by omega)]

/-- Bytes that fill the block exactly: it is compressed once, counted, and the next block is empty, with no byte of `Buf` fixed. -/
theorem absorbAll_fill (xs : List Byte) (s : State) (hne : 0 < xs.length)
    (hl : s.blockLen.toNat + xs.length = 64) :
    ∃ t, absorbAll xs s = .next t ∧ t.blockLen = 0 ∧ t.bitLen = s.bitLen + 512 ∧ t.draws = s.draws + 1 ∧
      t.h = compress s.h ((List.range 64).map fun a =>
        if s.blockLen.toNat ≤ a then xs.getD (a - s.blockLen.toNat) 0 else s.readBuf a) ∧
      t.buf = [] := by
  obtain ⟨ys, x, rfl⟩ : ∃ ys x, xs = ys ++ [x] :=
    ⟨xs.dropLast, xs.getLast (List.ne_nil_of_length_pos hne), (List.dropLast_append_getLast _).symm⟩
  simp only [List.length_append, List.length_singleton] at hl
  obtain ⟨u, hu, u1, u2, u3, ⟨-, -, -, u4⟩, u5⟩ := absorbAll_room ys s (by omega)
  have hx : absorb x u = .next (u.appendByte x).compressBuf.countBlock := by
    rw [absorb_eq_next.2 ⟨by omega, rfl⟩, State.appendByte_full x (by omega)]
  have hread : ∀ a, (u.appendByte x).readBuf a =
      if s.blockLen.toNat ≤ a ∧ a < 64 then (ys ++ [x]).getD (a - s.blockLen.toNat) 0 else s.readBuf a := by
    intro a
    rw [State.readBuf_appendByte, u5, u1]
    simp only [List.getD_eq_getElem?_getD]
    by_cases ha : a = s.blockLen.toNat + ys.length
    · subst ha
      rw [if_pos rfl, if_pos (by omega)]
      simp
    · rw [if_neg ha]
      by_cases hr : s.blockLen.toNat ≤ a ∧ a < s.blockLen.toNat + ys.length
      · rw [if_pos hr, if_pos (by omega), List.getElem?_append_left (by omega)]
      · rw [if_neg hr, if_neg (by omega)]
  have ht : absorbAll (ys ++ [x]) s = .next (u.appendByte x).compressBuf.countBlock := by
    rw [absorbAll_append_next hu]
    exact absorbAll_cons_eq_next.2 ⟨_, hx, rfl⟩
  refine ⟨_, ht, rfl, ?_, ?_, ?_, rfl⟩
  · simp [u3]
  · simp [u4]
  · simp only [State.countBlock_h, State.compressBuf_h, State.appendByte_h, u2]
    congr 1
    refine State.block_eq_map fun a ha => ?_
    rw [hread]
    by_cases h : s.blockLen.toNat ≤ a
    · rw [if_pos ⟨h, ha⟩, if_pos h]
    · rw [if_neg (by omega), if_neg h]

end Sys2Proof.Machine
end

