-- ==== Sys2Proof/Laws/Message.lean ====
section
/-! SUPPORT. Chaining over blocks, and bringing a property that the host-side fields cannot touch from state to state. -/

namespace Sys2Proof.Machine

theorem hashBlocks_zero (bytes : List Byte) (h : Chain) : hashBlocks 0 bytes h = h := rfl

theorem hashBlocks_succ (n : Nat) (bytes : List Byte) (h : Chain) :
    hashBlocks (n + 1) bytes h = compress (hashBlocks n bytes h) ((bytes.drop (64 * n)).take 64) := rfl

/-- Only the first `64 * n` bytes matter. -/
theorem hashBlocks_append (n : Nat) (a b : List Byte) (h : Chain) (hl : 64 * n ≤ a.length) :
    hashBlocks n (a ++ b) h = hashBlocks n a h := by
  induction n with
  | zero => rfl
  | succ n ih =>
    rw [hashBlocks_succ, hashBlocks_succ, ih (by omega), List.drop_append_of_le_length (by omega),
      List.take_append_of_le_length (by simp; omega)]

/-- A block is a list of 64 bytes that its indices read. -/
theorem State.block_eq_list {s : State} {l : List Byte} (hl : l.length = 64)
    (h : ∀ j, j < 64 → s.readBuf j = l.getD j 0) : s.block = l := by
  refine List.ext_getElem (by rw [State.block_length, hl]) fun j h1 h2 => ?_
  rw [State.block_length] at h1
  have e := s.block_getD j h1
  rw [List.getD_eq_getElem?_getD, List.getElem?_eq_getElem (by rw [State.block_length]; exact h1),
    Option.getD_some] at e
  rw [e, h j h1, List.getD_eq_getElem?_getD, List.getElem?_eq_getElem h2, Option.getD_some]

/-- The invariants depend on these fields alone. -/
theorem Inv.congr {s t : State} (h : Inv s) (hp : t.phase = s.phase) (hb : t.buf = s.buf)
    (hl : t.blockLen = s.blockLen) (hn : t.bitLen = s.bitLen) (hf : t.finalized = s.finalized)
    (he : t.err = s.err) (hc : t.errCode = s.errCode) : Inv t := by
  obtain ⟨h1, h2, h3, h4, h5, h6, h7, h8, h9, h10⟩ := h
  constructor <;> simp_all

/-- A held message depends on these fields alone. -/
theorem Absorbed.congr {s t : State} {m : List Byte} (h : Absorbed s m) (hh : t.h = s.h) (hb : t.buf = s.buf)
    (hd : t.bufDraw = s.bufDraw) (hl : t.blockLen = s.blockLen) (hn : t.bitLen = s.bitLen)
    (hf : t.finalized = s.finalized) : Absorbed t m :=
  ⟨hf.trans h.opened, h.bounded, hh.trans h.chain, by rw [hl]; exact h.blockLen_eq, by rw [hn]; exact h.bitLen_eq,
    fun j hj => (State.readBuf_congr hb hd j).trans (h.buffered j hj)⟩

/-- A digested message depends on these fields alone. -/
theorem Digested.congr {s t : State} {m : List Byte} (h : Digested s m) (hh : t.h = s.h)
    (hl : t.blockLen = s.blockLen) (hn : t.bitLen = s.bitLen) (hf : t.finalized = s.finalized) : Digested t m :=
  ⟨hf.trans h.closed, h.bounded, hh.trans h.chain, hl.trans h.blockLen_eq, by rw [hn]; exact h.bitLen_eq⟩

/-- After INIT the unit holds the empty message. -/
theorem initContext_absorbed (s : State) : Absorbed s.initContext [] :=
  ⟨rfl, by simp, rfl, rfl, rfl, fun _ hj => by simp at hj⟩

end Sys2Proof.Machine
end

