-- ==== Sys2Proof/Laws/PerInstr.lean ====
section
/-! SUPPORT. Per instruction: its word agrees with its row of spec/opcode_table.json (30_encoding.md R72) and decodes. -/

namespace Sys2Proof.Laws.TableRow

/-- The row's mask (R72). -/
def mask : Instr → Word
  | .init => 0xFFFFFFFF
  | .updateByte _ => 0xFFFFFF00
  | .updateDin _ => 0xFFFFFFF8
  | .finalize => 0xFFFFFFFF

/-- The row's match (R72). -/
def pattern : Instr → Word
  | .init => 0x01000000
  | .updateByte _ => 0x02000000
  | .updateDin _ => 0x03000000
  | .finalize => 0x04000000

/-- The word under the row's mask is the row's match, and its RSV field is 0 (R70, R72). -/
def Statement (i : Instr) : Prop := encode i &&& mask i = pattern i ∧ fieldRSV (encode i) = 0

theorem init : Statement .init := by unfold Statement; decide

theorem updateByte (imm8 : Byte) : Statement (.updateByte imm8) := by
  unfold Statement; revert imm8; decide

theorem updateDin (n : BitVec 3) : Statement (.updateDin n) := by
  unfold Statement; revert n; decide

theorem finalize : Statement .finalize := by unfold Statement; decide

end Sys2Proof.Laws.TableRow
end

