-- ==== Sys2Proof/Laws/Sequencer.lean ====
section
/-! SUPPORT. Runs of the sequencer put end to end, and what its phases may touch. -/

namespace Sys2Proof.Machine

theorem microRun_add (a b : Nat) (s : State) :
    microRun (a + b) s =
      match microRun a s with
      | .next t => microRun b t
      | .fault r => .fault r
      | .refused r => .refused r := by
  induction a generalizing s with
  | zero => simp [microRun]
  | succ a ih =>
    rw [show a + 1 + b = (a + b) + 1 by omega]
    simp only [microRun]
    cases microStep s <;> simp [ih]

theorem microRun_trans {a b : Nat} {s t : State} (h : microRun a s = .next t) :
    microRun (a + b) s = microRun b t := by rw [microRun_add, h]

theorem microRun_one {s t : State} (h : microStep s = .next t) : microRun 1 s = .next t := by
  simp [microRun, h]

theorem rounds_append (xs : List (Word × Word)) (p : Word × Word) (v : Working) :
    rounds (xs ++ [p]) v = shaRound p.1 p.2 (rounds xs v) := by
  induction xs generalizing v with
  | nil => rfl
  | cons x xs ih => simp only [List.cons_append, rounds]; exact ih _

theorem compress_eq (h : Chain) (block : List Byte) :
    compress h block = addWorking h (rounds ((schedule block).zip roundConstants) (loadWorking h)) := by
  unfold compress; rfl

/-- Outside IDLE a step is a phase of the sequencer. -/
theorem step_not_idle {s : State} (h : s.phase ≠ .idle) : step s = microStep s := by
  unfold step
  split
  · exact absurd ‹_› h
  all_goals rfl

end Sys2Proof.Machine
end

