-- ==== Sys2Proof/Tests/Slice0.lean ====
section
/-! SUPPORT. The model's own tests: expected values are those of 95_test_vectors.md (or of the rule named), never the model's
own. At the end stand the witnesses: for each obligation with hypotheses, states and operands that meet them. -/

namespace Sys2Proof.Tests

open Sys2Proof Sys2Proof.Machine

/-! ## Helpers -/

/-- An open context with `len` bytes in the block. -/
def openState (len : BitVec 7) (bits : BitVec 64) : State :=
  { State.reset with blockLen := len, bitLen := bits, din := 0x61626364 }

/-- A context after FINALIZE of a 3-byte message. -/
def sealedState : State := { State.reset with finalized := true, bitLen := 24 }

/-- A context with one byte written at index 62. -/
def nearFullState : State := { openState 63 512 with buf := [(62, 0x7a)] }

/-- The bytes 'a', 'b', 'c' in the block. -/
def abcState : State := { State.reset with buf := [(0, 0x61), (1, 0x62), (2, 0x63)], blockLen := 3 }

/-- 63 bytes 'a' in the block. -/
def sixtyThree : State :=
  { State.reset with buf := (List.range 63).map (fun i => (i, 0x61)), blockLen := 63, din := 0x61626364 }

def next? (o : Host.Outcome State Fault Refusal) : Option State :=
  match o with
  | .next s => some s
  | .fault _ => none
  | .refused _ => none

def abcBlock : List Byte := [0x61, 0x62, 0x63, 0x80] ++ List.replicate 59 0 ++ [0x18]

/-! ## Well-formedness and decoding (95 section 5, R72, R74) -/

theorem test_wellFormed_refuses_count_5 : (Instr.updateDin 5).wellFormed = false := by decide
theorem test_wellFormed_accepts_count_4 : (Instr.updateDin 4).wellFormed = true := by decide

theorem test_decode_init : decode 0b00000001_0000000000000000_00000000 = .ok .init := by decide
theorem test_decode_updateByte : decode 0b00000010_0000000000000000_11111111 = .ok (.updateByte 0xff) := by decide
theorem test_decode_updateDin : decode 0b00000011_0000000000000000_00000_100 = .ok (.updateDin 4) := by decide
theorem test_decode_finalize : decode 0b00000100_0000000000000000_00000000 = .ok .finalize := by decide
theorem test_decode_zero_is_illegal : decode 0x00000000 = .error .unknownOp := by decide
theorem test_decode_op5_is_illegal : decode 0x05000000 = .error .unknownOp := by decide
theorem test_decode_reserved_16 : decode 0x02010061 = .error .reservedBits := by decide
theorem test_decode_reserved_23 : decode 0x02800000 = .error .reservedBits := by decide
theorem test_decode_init_operand : decode 0x01000001 = .error .operandNotZero := by decide
theorem test_decode_finalize_operand : decode 0x04000080 = .error .operandNotZero := by decide
theorem test_decode_din_high : decode 0x03000010 = .error .operandHighBits := by decide
theorem test_decode_din_count : decode 0x03000007 = .error .countTooLarge := by decide
theorem test_encode_words :
    encode .init = 0x01000000 ∧ encode (.updateByte 0x61) = 0x02000061 ∧ encode (.updateDin 3) = 0x03000003 ∧
    encode .finalize = 0x04000000 := by decide
theorem test_decodeTableWord : decodeTableWord 32 0x02000061 = some (.updateByte 0x61) := by decide

/-! ## Bit functions and constants (95 sections 2.1 to 2.3) -/

theorem test_rotr : rotr 0x6a09e667 1 = 0xb504f333 ∧ rotr 0x12345678 31 = 0x2468acf0 := by decide
theorem test_sigmas :
    smallSigma0 0x12345678 = 0xe7fce6ee ∧ smallSigma1 0x12345678 = 0xa1f78649 ∧
    bigSigma0 0x12345678 = 0x66146474 ∧ bigSigma1 0x12345678 = 0x3561abda := by decide
theorem test_choose_majority :
    choose 0x6a09e667 0xbb67ae85 0x3c6ef372 = 0x3e67b715 ∧ majority 0x6a09e667 0xbb67ae85 0x3c6ef372 = 0x3a6fe667 := by
  decide
theorem test_addition_wraps : (0x6a09e667 : Word) + 0xbb67ae85 = 0x257194ec := by decide

/-- The primes of R121. -/
def primes : List Nat :=
  [2, 3, 5, 7, 11, 13, 17, 19, 23, 29, 31, 37, 41, 43, 47, 53, 59, 61, 67, 71, 73, 79, 83, 89, 97, 101, 103, 107, 109,
   113, 127, 131] ++
  [137, 139, 149, 151, 157, 163, 167, 173, 179, 181, 191, 193, 197, 199, 211, 223, 227, 229, 233, 239, 241, 251, 257,
   263, 269, 271, 277, 281, 283, 293, 307, 311]

/-- `k` is the low word of the integer cube root of `p * 2^96` (R121). -/
def isRoundConstant (p : Nat) (k : Word) : Bool :=
  (List.range 7).any fun q =>
    let r := q * 2 ^ 32 + k.toNat
    decide (r ^ 3 ≤ p * 2 ^ 96) && decide (p * 2 ^ 96 < (r + 1) ^ 3)

theorem test_roundConstants_from_cube_roots :
    primes.length = 64 ∧ roundConstants.length = 64 ∧
    (primes.zip roundConstants).all (fun pk => isRoundConstant pk.1 pk.2) = true := by decide +kernel

/-- `w` is the low word of the integer square root of `p * 2^64` (R120). -/
def isInitialWord (p : Nat) (w : Word) : Bool :=
  (List.range 5).any fun q =>
    let r := q * 2 ^ 32 + w.toNat
    decide (r ^ 2 ≤ p * 2 ^ 64) && decide (p * 2 ^ 64 < (r + 1) ^ 2)

theorem test_iv_from_square_roots :
    ((primes.take 8).zip [iv.h0, iv.h1, iv.h2, iv.h3, iv.h4, iv.h5, iv.h6, iv.h7]).all
      (fun pw => isInitialWord pw.1 pw.2) = true := by decide +kernel

/-! ## Compression (95 sections 2.4 to 2.6) -/

theorem test_schedule_abc :
    (schedule abcBlock).getD 17 0 = 0x000f0000 ∧ (schedule abcBlock).getD 63 0 = 0x12b1edeb := by decide +kernel
theorem test_round_0_abc :
    shaRound 0x61626380 (roundConstant 0) (loadWorking iv) =
      ⟨0x5d6aebcd, 0x6a09e667, 0xbb67ae85, 0x3c6ef372, 0xfa2a4622, 0x510e527f, 0x9b05688c, 0x1f83d9ab⟩ := by
  decide +kernel
theorem test_compress_abc :
    compress iv abcBlock =
      ⟨0xba7816bf, 0x8f01cfea, 0x414140de, 0x5dae2223, 0xb00361a3, 0x96177a9c, 0xb410ff61, 0xf20015ad⟩ := by
  decide +kernel

/-! ## Commands, one step each -/

/-- R101: INIT in the middle of a message. -/
theorem test_init_clears :
    (next? (step ({ openState 17 1024 with err := true, errCode := 3 }.withFetchWord 32 0x01000000))).map
      (fun t => (t.blockLen, t.bitLen, readReg t .status, t.din)) = some (0, 0, 0, 0x61626364) := by decide

/-- 92 D28, 93 section 1: INIT and a compression leave no byte of `Buf` that a rule fixes. -/
theorem test_stale_bytes_forgotten :
    (next? (exec .init abcState)).map (·.buf) = some [] ∧ (next? (exec .finalize abcState)).map (·.buf) = some [] ∧
    (next? (exec (.updateByte 0x7a) nearFullState)).map (·.buf) = some [] := by decide

/-- 95 section 4.2: R102's example. -/
theorem test_updateByte_first :
    (next? (step (State.reset.withFetchWord 32 0x02000061))).map
      (fun t => (t.readBuf 0, t.blockLen, t.bitLen, t.h.h0)) = some (0x61, 1, 0, 0x6a09e667) := by decide

/-- 95 section 4.4: the 64th byte compresses at once. -/
theorem test_updateByte_fills :
    (next? (step (sixtyThree.withFetchWord 32 0x02000061))).map
      (fun t => (t.blockLen, t.bitLen, t.h.h0, t.h.h7)) = some (0, 0x200, 0xdf5bb81c, 0x00635e66) := by
  decide +kernel

/-- 95 section 4.2: R103's example, most significant byte first. -/
theorem test_updateDin_order :
    (next? (step ((openState 0 0).withFetchWord 32 0x03000003))).map
      (fun t => (t.readBuf 0, t.readBuf 1, t.readBuf 2, t.blockLen, t.din)) =
      some (0x61, 0x62, 0x63, 3, 0x61626364) := by decide

/-- R103: a block that fills inside the command; the rest starts the next block. -/
theorem test_updateDin_fills :
    (next? (step (sixtyThree.withFetchWord 32 0x03000004))).map
      (fun t => (t.blockLen, t.bitLen, t.readBuf 0, t.readBuf 2, t.h.h0)) =
      some (3, 0x200, 0x62, 0x64, 0xdf5bb81c) := by decide +kernel

/-- 95 section 1.1: "abc". -/
theorem test_finalize_abc :
    (next? (step (abcState.withFetchWord 32 0x04000000))).map
      (fun t => (t.h.h0, t.h.h7, t.bitLen, t.blockLen, readReg t .status)) =
      some (0xba7816bf, 0xf20015ad, 24, 0, 1) := by decide +kernel

/-- 95 section 3.1, 63 bytes 'a': two compressions. -/
theorem test_finalize_63 :
    (next? (step (sixtyThree.withFetchWord 32 0x04000000))).map (fun t => (t.h.h0, t.h.h7, t.bitLen)) =
      some (0x7d3e74a0, 0x7ddc2f34, 0x1f8) := by decide +kernel

/-- 95 section 8.7: the empty message straight after reset. -/
theorem test_finalize_after_reset :
    (next? (step (State.reset.withFetchWord 32 0x04000000))).map (fun t => (t.h.h0, t.h.h7, t.bitLen)) =
      some (0xe3b0c442, 0x7852b855, 0) := by decide +kernel

/-! ## Rejections (95 sections 4.5 and 6) -/

/-- 95 section 4.5, `bit_len = 2^64 - 512`. -/
theorem test_length_guard_rejects :
    (next? (step ((openState 63 0xfffffffffffffe00).withFetchWord 32 0x02000061))).map
      (fun t => (t.blockLen, readReg t .status)) = some (63, 0x32) ∧
    (next? (step ((openState 60 0xfffffffffffffe00).withFetchWord 32 0x03000004))).map
      (fun t => (t.blockLen, readReg t .status)) = some (60, 0x32) := by decide
theorem test_length_guard_accepts :
    (next? (step ((openState 62 0xfffffffffffffe00).withFetchWord 32 0x02000061))).map
      (fun t => (t.blockLen, readReg t .status)) = some (63, 0x00) ∧
    (next? (step ((openState 63 0xfffffffffffffe00).withFetchWord 32 0x03000000))).map
      (fun t => (t.blockLen, readReg t .status)) = some (63, 0x00) := by decide

/-- 95 section 6, rows 1 to 3. -/
theorem test_misuse :
    [0x02000064, 0x04000000, 0x03000000].map (fun w =>
      (next? (step (sealedState.withFetchWord 32 w))).map (fun t => (readReg t .status, t.bitLen, t.record))) =
    List.replicate 3 (some (0x23, 24, [.rejected .contextMisuse])) := by decide

/-- 95 section 6, row 4 (R207), and row 6 (R208). -/
theorem test_illegal_over_misuse :
    (next? (step (sealedState.withFetchWord 32 0x02010061))).map (readReg · .status) = some 0x13 ∧
    (next? (step ({ sealedState with err := true, errCode := 2 }.withFetchWord 32 0))).map (readReg · .status) =
      some 0x13 := by decide

/-- 95 section 4.4: a successful UPDATE leaves the error record. -/
theorem test_update_keeps_errors :
    (next? (step ({ State.reset with err := true, errCode := 1 }.withFetchWord 32 0x02000061))).map
      (fun t => (readReg t .status, readReg t .blockLen)) = some (0x12, 1) := by decide

/-! ## The bus (95 section 7) -/

theorem test_registers_after_reset :
    [0x00, 0x04, 0x08, 0x0C, 0x10, 0x14, 0x18, 0x1C, 0x20, 0x24, 0x28, 0x2C, 0x30, 0x34, 0x38, 0x3C].map
      (fun off => readReg State.reset (regAt off)) =
    [0, 0, 0, 0, 0, 0, 0, 0, 0x6a09e667, 0xbb67ae85, 0x3c6ef372, 0xa54ff53a, 0x510e527f, 0x9b05688c, 0x1f83d9ab,
     0x5be0cd19] := by decide
theorem test_bus_errors :
    [HostMove.read 0x08 1, .read 0x22 4, .write 0x00 2 0x01000000].map (fun m =>
      (next? (serve m State.reset)).map (fun t => (t.responses, t.record, readReg t .status))) =
    List.replicate 3 (some ([.busError], [.busError], 0)) := by decide
theorem test_ignored_writes :
    [HostMove.write 0x20 4 0, .write 0x18 4 5, .write 0x0C 4 7].map (fun m =>
      (next? (serve m State.reset)).map (fun t => (t.responses, readReg t (.h 0), readReg t .reserved18, t.blockLen))) =
    List.replicate 3 (some ([.ok], 0x6a09e667, 0, 0)) := by decide
theorem test_din_write :
    (next? (step { State.reset with host := [.write 0x04 4 0x12345678] })).map
      (fun t => (readReg t .din, t.responses, t.blockLen)) = some (0x12345678, [.ok], 0) := by decide
/-- R230, R218: a later reset clears ERR but not the model's record. -/
theorem test_reset_keeps_record :
    (next? (step { sealedState with err := true, errCode := 1, record := [.busError], host := [.reset] })).map
      (fun t => (readReg t .status, t.h.h7, t.record)) = some (0, 0x5be0cd19, [.busError]) := by decide

/-! ## The sequencer (R240): the phases of a short command -/

theorem test_phase_order_finalize :
    ((next? (microRun 1 (abcState.startCommand 0x04000000))).map (·.phase)) = some .pad80 ∧
    ((next? (microRun 2 (abcState.startCommand 0x04000000))).map (·.phase)) = some .zero56 ∧
    ((next? (microRun 2 (sixtyThree.startCommand 0x04000000))).map (·.phase)) = some .zero64 := by decide
theorem test_phase_reject :
    ((next? (microRun 2 (sealedState.startCommand 0x04000000))).map (fun t => (t.phase, t.errCode, t.responses))) =
      some (.idle, 2, [.ok]) := by decide

/-! ## Statements and pseudo-instructions (R77, R78) -/

theorem test_feedw :
    stmtMoves (pseudoExpand (.feedW [0x61, 0x62, 0x63, 0x64, 0x65])) =
      [.write 0x04 4 0x61626364, .write 0x00 4 0x03000004, .write 0x04 4 0x65000000, .write 0x00 4 0x03000001] := by
  decide
theorem test_expect :
    stmtMet (.expect 0x20 0x6a09e667) (.data 0x6a09e667) = true ∧ stmtMet (.expect 0x20 0) (.data 1) = false := by decide

/-! ## Witnesses: states and operands that meet the hypotheses of the obligations -/

/-- 125 full blocks absorbed, 62 bytes in the block. -/
def busyState : State := openState 62 64000

/-- A full-range open context: `bit_len = 2^64 - 512`. -/
def lastBlock (len : BitVec 7) : State := openState len 0xfffffffffffffe00

/-- A state no run reaches: `block_len = 64`. -/
def overfull : State := openState 64 0

/-- The state with a CMD write of `w` pending. -/
def withCmd (s : State) (w : Word) : State := { s with host := [.write 0x00 4 w] }

theorem witness_StepRunsDecodedCommand :
    (withCmd abcState 0x04000000).phase = .idle ∧
    (withCmd abcState 0x04000000).host = .write 0x00 4 0x04000000 :: [] ∧ decode 0x04000000 = .ok .finalize := by decide
theorem witness_StepRejectsIllegalWord :
    (withCmd abcState 0x03000005).phase = .idle ∧
    (withCmd abcState 0x03000005).host = .write 0x00 4 0x03000005 :: [] ∧
    decode 0x03000005 = .error .countTooLarge := by decide
theorem witness_IllegalWordsAreRejected :
    decode 0x05000000 = .error .unknownOp ∧ (0x04ffff00 : Word).extractLsb' 8 16 ≠ 0 ∧
    (0x04000080 : Word).toNat / 2 ^ 24 = 4 ∧ (0x04000080 : Word).extractLsb' 0 8 ≠ 0 := by decide
theorem witness_IdleUnitKeepsState : busyState.phase = .idle ∧ busyState.host = [] := by decide
theorem witness_RecordOnlyGrows :
    ((next? (step (withCmd sealedState 0x04000000))).map (·.record)) = some [.rejected .contextMisuse] ∧
    ((next? (step (withCmd sealedState 0x01000000))).map (·.record)) = some [] := by decide
theorem witness_OnlyDinWriteOrResetChangesDin :
    busyState.phase = .idle ∧
    ((next? (step { busyState with host := [.write 0x04 4 7] })).map (·.din)) = some 7 ∧
    ((next? (step { busyState with host := [.reset] })).map (·.din)) = some 0 ∧
    ((next? (step { busyState with host := [.write 0x04 2 7] })).map (·.din)) = some 0x61626364 := by decide

/-- Invariants of an open state in mid-message, of the last possible block, and of a sealed state. -/
theorem witness_Inv_busy : Inv busyState := by constructor <;> decide
theorem witness_Inv_lastBlock : Inv (lastBlock 63) := by constructor <;> decide
theorem witness_Inv_sealed : Inv sealedState := by constructor <;> decide
theorem witness_Inv_nearFull : Inv nearFullState := by constructor <;> decide
theorem witness_Inv_rejected : Inv { sealedState with err := true, errCode := 2 } := by constructor <;> decide

theorem witness_StepNeverFaultsUnderInvariant :
    Inv { busyState with host := [.read 64 4] } ∧
    step { busyState with host := [.read 64 4] } = .refused .outsideWindow ∧
    (next? (step { busyState with host := [.read 63 4] })).isSome = true :=
  ⟨by constructor <;> decide, rfl, by decide⟩
theorem witness_StepKeepsInvariants :
    Inv (withCmd (lastBlock 62) 0x020000ff) ∧
    ((next? (step (withCmd (lastBlock 62) 0x020000ff))).map (·.blockLen)) = some 63 :=
  ⟨by constructor <;> decide, by decide⟩

theorem witness_AbsorbStoresOneByte :
    (openState 0 0).blockLen.toNat ≤ 63 ∧ (openState 0 0).blockLen.toNat < 63 ∧
    busyState.blockLen.toNat < 63 ∧ nearFullState.blockLen.toNat ≤ 63 ∧ nearFullState.blockLen.toNat = 63 := by decide
theorem witness_UpdateByteAbsorbsItsByte :
    ((lastBlock 62).blockLen.toNat < 63 ∧ (lastBlock 62).finalized = false ∧
      (lastBlock 62).bitLen.toNat + 8 * ((lastBlock 62).blockLen.toNat + 1) < 2 ^ 64) ∧
    (nearFullState.blockLen.toNat = 63 ∧ nearFullState.finalized = false ∧
      nearFullState.bitLen.toNat + 8 * (nearFullState.blockLen.toNat + 1) < 2 ^ 64) := by decide
theorem witness_UpdateDinAbsorbsItsBytes :
    ((lastBlock 60).finalized = false ∧ (lastBlock 60).blockLen.toNat ≤ 63 ∧ (3 : BitVec 3).toNat ≤ 4 ∧
      (lastBlock 60).bitLen.toNat + 8 * ((lastBlock 60).blockLen.toNat + (3 : BitVec 3).toNat) < 2 ^ 64 ∧
      (lastBlock 60).blockLen.toNat + (3 : BitVec 3).toNat < 64) ∧
    (nearFullState.finalized = false ∧ (4 : BitVec 3).toNat ≤ 4 ∧
      nearFullState.bitLen.toNat + 8 * (nearFullState.blockLen.toNat + (4 : BitVec 3).toNat) < 2 ^ 64 ∧
      64 ≤ nearFullState.blockLen.toNat + (4 : BitVec 3).toNat) ∧
    ((openState 60 0).blockLen.toNat + (4 : BitVec 3).toNat = 64 ∧ (0 : BitVec 3).toNat ≤ 4) := by decide
theorem witness_UpdateDinEqualsByteUpdates :
    (4 : BitVec 3).toNat ≤ 4 ∧ busyState.finalized = false ∧
    busyState.bitLen.toNat + 8 * (busyState.blockLen.toNat + (4 : BitVec 3).toNat) < 2 ^ 64 := by decide

theorem witness_MisuseAfterFinalizeIsRejected :
    sealedState.finalized = true ∧ (0 : BitVec 3).toNat ≤ 4 ∧ (4 : BitVec 3).toNat ≤ 4 := by decide
theorem witness_LengthBoundIsEnforced :
    (lastBlock 63).finalized = false ∧
    2 ^ 64 = (lastBlock 63).bitLen.toNat + 8 * ((lastBlock 63).blockLen.toNat + 1) ∧
    (4 : BitVec 3).toNat ≤ 4 ∧
    2 ^ 64 = (lastBlock 60).bitLen.toNat + 8 * ((lastBlock 60).blockLen.toNat + (4 : BitVec 3).toNat) := by decide
theorem witness_FirstFailingCheckDecides :
    (63 < 64 ∧ 63 % 4 ≠ 0) ∧ (0 < 64 ∧ (2 : Nat) ≠ 4) ∧ decode 0x02010061 = .error .reservedBits ∧
    isUpdate (.updateByte 0x61) = true ∧ isUpdate (.updateDin 4) = true ∧
    { lastBlock 63 with finalized := true }.finalized = true := by decide
theorem witness_CommandKeepsErrorsOrIsRejected :
    Instr.finalize ≠ .init ∧
    ((next? (exec .finalize sealedState)).map (·.errCode)) = some 2 ∧
    ((next? (exec (.updateByte 0) busyState)).map (·.errCode)) = some 0 := by decide
theorem witness_CommandSetsFinalized :
    ((next? (exec .init sealedState)).map (·.finalized)) = some false ∧
    ((next? (exec .finalize abcState)).map (·.finalized)) = some true ∧
    ((next? (exec (.updateDin 2) abcState)).map (·.finalized)) = some false := by decide
theorem witness_OutOfRangeOperandsStopOrAreRejected :
    64 ≤ overfull.blockLen.toNat ∧ overfull.finalized = false ∧
    overfull.bitLen.toNat + 8 * (overfull.blockLen.toNat + 1) < 2 ^ 64 ∧ 4 < (5 : BitVec 3).toNat := by decide

theorem witness_FinalizeWithRoomForLength :
    ((openState 0 0).finalized = false ∧ (openState 0 0).blockLen.toNat ≤ 55 ∧
      (openState 0 0).bitLen.toNat + 8 * (openState 0 0).blockLen.toNat < 2 ^ 64) ∧
    ((lastBlock 55).finalized = false ∧ (lastBlock 55).blockLen.toNat = 55 ∧
      (lastBlock 55).bitLen.toNat + 8 * (lastBlock 55).blockLen.toNat < 2 ^ 64) := by decide
theorem witness_FinalizeWithoutRoomForLength :
    ((openState 56 0).finalized = false ∧ (openState 56 0).blockLen.toNat = 56 ∧
      (openState 56 0).bitLen.toNat + 8 * (openState 56 0).blockLen.toNat < 2 ^ 64) ∧
    ((lastBlock 63).finalized = false ∧ (lastBlock 63).blockLen.toNat = 63 ∧
      (lastBlock 63).bitLen.toNat + 8 * (lastBlock 63).blockLen.toNat < 2 ^ 64) := by decide
theorem witness_CompressionCounts :
    busyState.blockLen.toNat ≤ 63 ∧ busyState.finalized = false ∧
    ((next? (exec (.updateDin 2) busyState)).map (·.record)) = some busyState.record ∧
    ((next? (exec .finalize sealedState)).map (·.record)) ≠ some sealedState.record ∧
    ((next? (exec .finalize (openState 55 0))).map (·.draws)) = some 2 ∧
    ((next? (exec .finalize (openState 56 0))).map (·.draws)) = some 3 := by decide
theorem witness_RotationAndShiftBits : 0 < 31 ∧ 31 < 32 ∧ (31 + 31) % 32 = 30 ∧ (rotr 0x40000000 31).getLsbD 31 = true := by
  decide
theorem witness_WindowDatapathComputesCompress :
    (abcState.goto (.compress .load .done)).phase = .compress .load .done := by decide
theorem witness_StepKeepsOnlyBlockHeld :
    Inv (withCmd abcState 0x02000064) ∧ OnlyBlockHeld (withCmd abcState 0x02000064) ∧
    (next? (step (withCmd abcState 0x02000064))).map (·.buf) = some [(0, 0x61), (1, 0x62), (2, 0x63), (3, 0x64)] :=
  ⟨by constructor <;> decide, rfl, by decide⟩
theorem witness_StepsRunTheHostProgram :
    busyState.phase = .idle ∧ [HostMove.read 0x08 1, .reset, .write 0x00 4 0x01000000].map isBusError = [true, false, false] := by
  decide
theorem witness_RegisterWrites :
    (0x3C < 64 ∧ 0x3C % 4 = 0 ∧ 0x3C ≠ 0x00) ∧ (0x04 < 64 ∧ 0x04 % 4 = 0 ∧ 0x04 ≠ 0x00) := by decide
theorem witness_BadWidthOrAlignmentIsBusError :
    (63 < 64 ∧ 63 % 4 ≠ 0) ∧ (0 < 64 ∧ 8 ≠ 4) ∧ (HostMove.read 63 4 = .read 63 4) := by decide
theorem witness_WindowSelection : 64 ≤ 64 ∧ target 64 4 = .outside ∧ target 60 4 = .reg (.h 7) := by decide

/-- 0x61, 0x62, 0x63 are the message the unit holds in `abcState`. -/
theorem witness_Absorbed_abc : Absorbed abcState [0x61, 0x62, 0x63] :=
  ⟨rfl, by decide, rfl, rfl, rfl, by decide⟩
theorem witness_Inv_abc : Inv abcState := by constructor <;> decide
theorem witness_StepKeepsConsistency_abc : Consistent (withCmd abcState 0x04000000) :=
  ⟨by constructor <;> decide, [0x61, 0x62, 0x63], .inl ⟨rfl, by decide, rfl, rfl, rfl, by decide⟩⟩
theorem witness_UpdateExtendsMessage :
    Absorbed abcState [0x61, 0x62, 0x63] ∧ isUpdate (.updateDin 4) = true ∧
    8 * ([0x61, 0x62, 0x63].length + (absorbedBytes abcState.din (.updateDin 4)).length) < 2 ^ 64 :=
  ⟨witness_Absorbed_abc, by decide, by decide⟩
theorem witness_FinalizeYieldsSha256 : Absorbed (openState 0 0) [] ∧ Absorbed abcState [0x61, 0x62, 0x63] :=
  ⟨⟨rfl, by decide, rfl, rfl, rfl, by decide⟩, witness_Absorbed_abc⟩

/-- The digest of "abc" in H: 95 section 1.1. -/
def digestedAbc : State :=
  { sealedState with
    h := ⟨0xba7816bf, 0x8f01cfea, 0x414140de, 0x5dae2223, 0xb00361a3, 0x96177a9c, 0xb410ff61, 0xf20015ad⟩ }

theorem test_sha256_abc : sha256 [0x61, 0x62, 0x63] = digestedAbc.h := by decide +kernel
theorem witness_Digested_abc : Digested digestedAbc [0x61, 0x62, 0x63] :=
  ⟨rfl, by decide, test_sha256_abc.symm, rfl, by decide⟩
theorem witness_StepKeepsConsistency_digested : Consistent digestedAbc :=
  ⟨by constructor <;> decide, [0x61, 0x62, 0x63], .inr witness_Digested_abc⟩
theorem witness_MessageDigestEndToEnd :
    (∀ i ∈ [Instr.updateByte 0x61, .updateDin 3, .updateDin 0], isUpdate i = true) ∧
    8 * ([Instr.updateByte 0x61, .updateDin 3, .updateDin 0].flatMap (absorbedBytes sealedState.din)).length < 2 ^ 64 := by
  decide

/-- The states of the next witness: they differ in a stale byte of `Buf` and in the internal registers. -/
def staleState : State := { abcState with buf := abcState.buf ++ [(3, 0xee)], round := 64, draws := 9 }

theorem witness_ResultsIgnoreUnspecifiedBytes :
    Inv abcState ∧ Inv staleState ∧ SameContext abcState staleState ∧ staleState.readBuf 3 = 0xee :=
  ⟨witness_Inv_abc, by constructor <;> decide, ⟨rfl, rfl, rfl, rfl, rfl, rfl, rfl, by decide⟩, by decide⟩
theorem witness_FeedWordsEqualsFeedBytes :
    nearFullState.blockLen.toNat ≤ 63 ∧ nearFullState.finalized = false ∧
    nearFullState.bitLen.toNat + 8 * (nearFullState.blockLen.toNat + [(1 : Byte), 2, 3, 4, 5].length) < 2 ^ 64 := by decide
theorem witness_HashReturnsSha256 : 8 * [(0x61 : Byte), 0x62, 0x63].length < 2 ^ 64 := by decide

end Sys2Proof.Tests
end

/-! PROOFS. The statements of the family 00_scope.md: the bits of a rotation and the wrapping sums of a round (R8, R10), bad
accesses (R52), the form of `Buf` between commands (R13), and the steps over a host program (R60, R236). -/

namespace Sys2Proof.Machine

open Host (Outcome)

/-! ## Words -/

/-- A rotation joins the bits shifted down with those shifted out, which come back at the top. -/
theorem rotr_getLsbD (x : Word) {n i : Nat} (hn : n < 32) (hi : i < 32) :
    (rotr x n).getLsbD i = if i + n < 32 then x.getLsbD (i + n) else x.getLsbD (i + n - 32) := by
  simp only [rotr, BitVec.getLsbD_or, BitVec.getLsbD_ushiftRight, BitVec.getLsbD_shiftLeft, Nat.add_comm n i]
  split
  · simp [show i < 32 - n by omega]
  · have hout : x.getLsbD (i + n) = false := BitVec.getLsbD_of_ge x _ (by omega)
    simp [hout, hi, show ¬ i < 32 - n by omega, show i - (32 - n) = i + n - 32 by omega]

/-- Settles O26: both bits come from bit `i + n` of the word, which lies outside it exactly when it has to wrap. -/
theorem rotationAndShiftBits : Obligations.RotationAndShiftBits := by
  intro x n i _ hn hi
  rw [rotr_getLsbD x hn hi, BitVec.getLsbD_ushiftRight, Nat.add_comm n i]
  by_cases hw : i + n < 32
  · simp [hw, Nat.mod_eq_of_lt hw]
  · have hout : x.getLsbD (i + n) = false := BitVec.getLsbD_of_ge x _ (by omega)
    simp [hw, hout, show (i + n) % 32 = i + n - 32 by omega]

/-- Settles O30: the six moves are the round's definition, and the two sums are read over the naturals. -/
theorem roundSumsWrap : Obligations.RoundSumsWrap := by
  intro m k v
  refine ⟨?_, ?_, rfl, rfl, rfl, rfl, rfl, rfl⟩
  · simp only [shaRound, BitVec.toNat_add]
    omega
  · simp only [shaRound, BitVec.toNat_add]
    omega

/-! ## Bad accesses -/

/-- Inside the window an access of another width or at an unaligned offset reaches no register. -/
theorem target_busError {off n : Nat} (hoff : off < 64) (hbad : n ≠ 4 ∨ off % 4 ≠ 0) : target off n = .busError := by
  unfold target
  rw [if_neg (by omega), if_pos hbad]

theorem movesAfterBusError_goesOn (h : Config.hostBusErr = .goesOn) (moves : List HostMove) :
    movesAfterBusError moves = moves := by
  simp only [movesAfterBusError, h]

theorem movesAfterBusError_faults (h : Config.hostBusErr = .faults) (moves : List HostMove) :
    movesAfterBusError moves = [] := by
  simp only [movesAfterBusError, h]

/-- Settles O35: such an access is answered by `takeBusError` alone. -/
theorem badWidthOrAlignmentIsBusError : Obligations.BadWidthOrAlignmentIsBusError := by
  intro s off n v m hoff hbad hm
  have hbus : isBusError m = true := by
    rcases hm with rfl | rfl <;> exact decide_eq_true (target_busError hoff hbad)
  exact ⟨s.takeBusError, serve_busError s hbus, rfl, (movesAfterBusError_goesOn · s.host),
    (movesAfterBusError_faults · s.host)⟩

/-! ## `Buf` has a fixed byte exactly below `block_len` -/

theorem OnlyBlockHeld.congr {s t : State} (h : OnlyBlockHeld s) (hb : t.buf = s.buf) (hl : t.blockLen = s.blockLen) :
    OnlyBlockHeld t := by
  unfold OnlyBlockHeld
  rw [hb, hl]
  exact h

theorem onlyBlockHeld_of_empty {s : State} (hb : s.buf = []) (hl : s.blockLen = 0) : OnlyBlockHeld s := by
  simp [OnlyBlockHeld, hb, hl]

/-- The appended byte stands behind all listed ones, at the index that `block_len` leaves. -/
theorem OnlyBlockHeld.appendByte {s : State} (h : OnlyBlockHeld s) (x : Byte) (hl : s.blockLen.toNat < 64) :
    OnlyBlockHeld (s.appendByte x) := by
  have hbelow : ∀ c ∈ s.buf, c.1 < s.blockLen.toNat := fun c hc =>
    List.mem_range.1 (h ▸ List.mem_map_of_mem hc)
  unfold OnlyBlockHeld at h ⊢
  rw [State.appendByte_buf, State.appendByte_blockLen_toNat s x hl, Memory.write_end _ _ _ hbelow, List.map_append, h,
    List.range_succ]
  rfl

theorem absorb_onlyBlockHeld (x : Byte) (s t : State) (h : OnlyBlockHeld s) (hx : absorb x s = .next t) :
    OnlyBlockHeld t := by
  obtain ⟨hl, rfl⟩ := absorb_eq_next.1 hx
  by_cases hfull : s.blockLen.toNat = 63
  · rw [State.appendByte_full x hfull]
    exact onlyBlockHeld_of_empty rfl rfl
  · rw [State.appendByte_not_full x (by omega)]
    exact h.appendByte x hl

theorem exec_onlyBlockHeld {i : Instr} {s t : State} (h : OnlyBlockHeld s) (hi : exec i s = .next t) :
    OnlyBlockHeld t := by
  rcases exec_cases hi with ⟨-, rfl⟩ | ⟨-, code, rfl, -⟩ | ⟨-, -, -, habs⟩ | ⟨-, -, -, rfl⟩
  · exact onlyBlockHeld_of_empty rfl rfl
  · exact h.congr rfl rfl
  · exact absorbAll_induction absorb_onlyBlockHeld _ h habs
  · exact onlyBlockHeld_of_empty rfl rfl

theorem executeWord_onlyBlockHeld {w : Word} {s t : State} (h : OnlyBlockHeld s) (hw : executeWord w s = .next t) :
    OnlyBlockHeld t := by
  rcases executeWord_cases hw with ⟨-, rfl⟩ | ⟨i, -, hi⟩
  · exact h.congr rfl rfl
  · exact exec_onlyBlockHeld h hi

theorem serve_onlyBlockHeld {m : HostMove} {s t : State} (h : OnlyBlockHeld s) (hm : serve m s = .next t) :
    OnlyBlockHeld t := by
  rcases serve_cases hm with ⟨-, rfl⟩ | rfl | ⟨v, rfl⟩ | ⟨w, u, -, hu, rfl⟩ | ⟨v, -, rfl⟩ | rfl
  · exact onlyBlockHeld_of_empty rfl rfl
  · exact h.congr rfl rfl
  · exact h.congr rfl rfl
  · exact (executeWord_onlyBlockHeld h hu).congr rfl rfl
  · exact h.congr rfl rfl
  · exact h.congr rfl rfl

/-- Settles O41: a step from IDLE serves at most one move, and every move keeps the form of `Buf`. -/
theorem stepKeepsOnlyBlockHeld : Obligations.StepKeepsOnlyBlockHeld := by
  intro s t hinv h hstep
  rcases step_cases hinv.idle hstep with ⟨-, rfl⟩ | ⟨m, rest, -, hm⟩
  · exact h
  · have hrest : OnlyBlockHeld { s with host := rest } := h.congr rfl rfl
    exact serve_onlyBlockHeld hrest hm

/-! ## Serving a move from IDLE ends in IDLE -/

/-- No command touches DIN, the phase or the host's side. -/
theorem exec_keepsHostSide {i : Instr} {s t : State} (h : exec i s = .next t) : KeepsHostSide s t := by
  rcases exec_cases h with ⟨-, rfl⟩ | ⟨-, code, rfl, -⟩ | ⟨-, -, -, habs⟩ | ⟨-, -, -, rfl⟩
  · exact ⟨rfl, rfl, rfl, rfl⟩
  · exact ⟨rfl, rfl, rfl, rfl⟩
  · exact (absorbAll_frame _ habs).2.2
  · exact s.finalize_frame.2

theorem executeWord_keepsHostSide {w : Word} {s t : State} (h : executeWord w s = .next t) : KeepsHostSide s t := by
  rcases executeWord_cases h with ⟨-, rfl⟩ | ⟨i, -, hi⟩
  · exact ⟨rfl, rfl, rfl, rfl⟩
  · exact exec_keepsHostSide hi

theorem serve_idle {m : HostMove} {s t : State} (hs : s.phase = .idle) (h : serve m s = .next t) : t.phase = .idle := by
  rcases serve_cases h with ⟨-, rfl⟩ | rfl | ⟨v, rfl⟩ | ⟨w, u, -, hu, rfl⟩ | ⟨v, -, rfl⟩ | rfl
  · rfl
  · exact hs
  · exact hs
  · exact (executeWord_keepsHostSide hu).phase.trans hs
  · exact hs
  · exact hs

/-! ## Pending moves change no outcome -/

/-- The state with these moves of the host pending. -/
def State.withHost (moves : List HostMove) (s : State) : State := { s with host := moves }

/-- The outcome with its next state changed by `f`; a stop stays as it is. -/
def mapNext (f : State → State) (o : Outcome State Fault Refusal) : Outcome State Fault Refusal :=
  match o with
  | .next t => .next (f t)
  | .fault r => .fault r
  | .refused r => .refused r

@[simp] theorem mapNext_next (f : State → State) (s : State) : mapNext f (.next s) = .next (f s) := rfl
@[simp] theorem mapNext_fault (f : State → State) (r : Fault) : mapNext f (.fault r) = .fault r := rfl
@[simp] theorem mapNext_refused (f : State → State) (r : Refusal) : mapNext f (.refused r) = .refused r := rfl

@[simp] theorem State.withHost_withHost (l l' : List HostMove) (s : State) :
    (s.withHost l').withHost l = s.withHost l := rfl
@[simp] theorem State.withHost_blockLen (l : List HostMove) (s : State) : (s.withHost l).blockLen = s.blockLen := rfl
@[simp] theorem State.withHost_finalized (l : List HostMove) (s : State) : (s.withHost l).finalized = s.finalized := rfl

section
variable (l : List HostMove) (s : State)

theorem State.closeIfFull_withHost : (s.withHost l).closeIfFull = s.closeIfFull.withHost l := by
  unfold State.closeIfFull
  rw [State.withHost_blockLen]
  split <;> rfl

theorem absorb_withHost (x : Byte) : absorb x (s.withHost l) = mapNext (State.withHost l) (absorb x s) := by
  unfold absorb
  rw [State.withHost_blockLen]
  split
  · exact congrArg Outcome.next ((s.appendByte x).closeIfFull_withHost l)
  · rfl

theorem absorbAll_withHost (xs : List Byte) :
    absorbAll xs (s.withHost l) = mapNext (State.withHost l) (absorbAll xs s) := by
  induction xs generalizing s with
  | nil => rfl
  | cons x xs ih =>
    simp only [absorbAll, absorb_withHost]
    cases absorb x s with
    | next t => exact ih t
    | fault r => rfl
    | refused r => rfl

theorem update_withHost (xs : List Byte) : update xs (s.withHost l) = mapNext (State.withHost l) (update xs s) := by
  have hlen : lengthOK (s.withHost l) xs.length = lengthOK s xs.length := rfl
  simp only [update, absorbAll_withHost, State.withHost_finalized, hlen]
  split_ifs <;> rfl

theorem State.writeBuf_withHost (i : Nat) (xs : List Byte) :
    (s.withHost l).writeBuf i xs = (s.writeBuf i xs).withHost l := rfl

theorem State.compressBuf_withHost : (s.withHost l).compressBuf = s.compressBuf.withHost l := rfl

theorem State.mark80_withHost : (s.withHost l).mark80 = s.mark80.withHost l := rfl

theorem State.padRoom_withHost : (s.withHost l).padRoom = s.padRoom.withHost l := rfl

theorem State.padNoRoom_withHost : (s.withHost l).padNoRoom = s.padNoRoom.withHost l := by
  simp only [State.padNoRoom_eq, State.withHost_blockLen, State.writeBuf_withHost, State.compressBuf_withHost]

theorem State.pad_withHost : (s.withHost l).pad = s.pad.withHost l := by
  simp only [State.pad, State.withHost_blockLen, State.mark80_withHost, State.padRoom_withHost,
    State.padNoRoom_withHost]
  split_ifs <;> rfl

theorem execFinalize_withHost : execFinalize (s.withHost l) = mapNext (State.withHost l) (execFinalize s) := by
  simp only [execFinalize, State.pad_withHost, State.withHost_finalized, State.withHost_blockLen]
  split_ifs <;> rfl

theorem exec_withHost (i : Instr) : exec i (s.withHost l) = mapNext (State.withHost l) (exec i s) := by
  cases i with
  | init => rfl
  | updateByte b => exact update_withHost l s [b]
  | updateDin n =>
    simp only [exec, execUpdateDin]
    split
    · rfl
    · exact update_withHost l s (dinBytes s.din n)
  | finalize => exact execFinalize_withHost l s

theorem executeWord_withHost (w : Word) :
    executeWord w (s.withHost l) = mapNext (State.withHost l) (executeWord w s) := by
  cases hw : decode w with
  | error e => rw [executeWord_error _ hw, executeWord_error _ hw]; rfl
  | ok i => rw [executeWord_ok _ hw, executeWord_ok _ hw, exec_withHost]

theorem writeReg_withHost (r : Reg) (v : Word) :
    writeReg r v (s.withHost l) = mapNext (State.withHost l) (writeReg r v s) := by
  cases r with
  | cmd => exact executeWord_withHost l s v
  | _ => rfl

theorem readReg_withHost (r : Reg) : readReg (s.withHost l) r = readReg s r := by
  cases r <;> rfl

theorem answerOk_mapNext_withHost (o : Outcome State Fault Refusal) :
    answerOk (mapNext (State.withHost l) o) = mapNext (State.withHost l) (answerOk o) := by
  cases o <;> rfl

/-- The outcome of a move that gets no `BusError` does not depend on the moves still pending, and keeps them. -/
theorem serve_withHost {m : HostMove} (hm : isBusError m = false) :
    serve m (s.withHost l) = mapNext (State.withHost l) (serve m s) := by
  cases m with
  | reset => rfl
  | read off n =>
    cases ht : target off n with
    | outside => simp only [serve, ht, mapNext_refused]
    | busError => simp [isBusError, ht] at hm
    | reg r => simp only [serve, ht, readReg_withHost, mapNext_next]; rfl
  | write off n v =>
    cases ht : target off n with
    | outside => simp only [serve, ht, mapNext_refused]
    | busError => simp [isBusError, ht] at hm
    | reg r => simp only [serve, ht, writeReg_withHost, answerOk_mapNext_withHost]

theorem State.takeBusError_withHost :
    (s.withHost l).takeBusError = s.takeBusError.withHost (movesAfterBusError l) := rfl

end

/-! ## Steps over a host program -/

theorem hostGoesOn_busError {m : HostMove} (hm : isBusError m = true) :
    hostGoesOn m = decide (Config.hostBusErr = .goesOn) := by
  simp [hostGoesOn, hm]

/-- In IDLE the first pending move is served with the others left pending. -/
theorem step_withHost_cons {s : State} (hs : s.phase = .idle) (m : HostMove) (rest : List HostMove) :
    step (s.withHost (m :: rest)) = serve m (s.withHost rest) := step_idle (s := s.withHost (m :: rest)) hs

/-- With no move pending any number of steps leaves the idle unit as it is. -/
theorem stepRun_withHost_nil {s : State} (hs : s.phase = .idle) (n : Nat) :
    stepRun n (s.withHost []) = .next (s.withHost []) := by
  induction n with
  | zero => rfl
  | succ n ih =>
    have hstep : step (s.withHost []) = .next (s.withHost []) := step_idle (s := s.withHost []) hs
    simp only [stepRun, hstep, ih]

/-- A step takes the first move and leaves the others, on which the outcome does not depend; after a `BusError` both sides
go on or end together. -/
theorem stepRun_withHost {s : State} (hs : s.phase = .idle) (moves : List HostMove) :
    stepRun moves.length (s.withHost moves) = serveAll moves (s.withHost []) := by
  induction moves generalizing s with
  | nil => rfl
  | cons m rest ih =>
    simp only [List.length_cons, stepRun, serveAll, step_withHost_cons hs]
    cases hm : isBusError m with
    | true =>
      have hidle : s.takeBusError.phase = .idle := hs
      simp only [serve_busError _ hm, State.takeBusError_withHost, hostGoesOn_busError hm]
      cases hb : Config.hostBusErr with
      | faults => simpa [movesAfterBusError_faults hb] using stepRun_withHost_nil hidle rest.length
      | goesOn => simpa [movesAfterBusError_goesOn hb] using ih hidle
    | false =>
      simp only [serve_withHost _ s hm, hostGoesOn_of_no_busError hm, if_true]
      cases ht : serve m s with
      | next t => exact ih (serve_idle hs ht)
      | fault r => rfl
      | refused r => rfl

/-- Settles O6, by induction on the moves. -/
theorem stepsRunTheHostProgram : Obligations.StepsRunTheHostProgram :=
  fun _ moves hs => stepRun_withHost hs moves

end Sys2Proof.Machine

/-! PROOFS. The statements of the family 10_state.md: the sequencer ends where the command executed at once ends (R28,
R240), the invariants between commands and the message that the unit holds or has digested (R41, R158), the independence
from unspecified bytes (R42, R106), what commands and moves do to FINALIZED and DIN (R24, R26), the register window (R30
to R39, R51) and reset (R40). -/

namespace Sys2Proof.Machine

/-! ## The message schedule -/

theorem expandStep_length (m : List Word) : (expandStep m).length = m.length + 1 := by simp [expandStep]

theorem expandStep_getD_of_lt {m : List Word} {k : Nat} (hk : k < m.length) :
    (expandStep m).getD k 0 = m.getD k 0 :=
  List.getD_append _ _ _ _ hk

theorem expandStep_getD_length (m : List Word) :
    (expandStep m).getD m.length 0 =
      scheduleWord (m.getD (m.length - 2) 0) (m.getD (m.length - 7) 0) (m.getD (m.length - 15) 0)
        (m.getD (m.length - 16) 0) := by
  simp [expandStep, List.getD_eq_getElem?_getD]

/-- From index 16 on every word of the list is the one that R129 gives. -/
def FollowsRecurrence (m : List Word) : Prop :=
  ∀ k, 16 ≤ k → k < m.length →
    m.getD k 0 = scheduleWord (m.getD (k - 2) 0) (m.getD (k - 7) 0) (m.getD (k - 15) 0) (m.getD (k - 16) 0)

theorem expandStep_followsRecurrence {m : List Word} (h : FollowsRecurrence m) :
    FollowsRecurrence (expandStep m) := by
  intro k hk hlen
  rw [expandStep_length] at hlen
  rw [expandStep_getD_of_lt (k := k - 2) (by omega), expandStep_getD_of_lt (k := k - 7) (by omega),
    expandStep_getD_of_lt (k := k - 15) (by omega), expandStep_getD_of_lt (k := k - 16) (by omega)]
  obtain hlt | rfl : k < m.length ∨ k = m.length := by omega
  · rw [expandStep_getD_of_lt hlt, h k hk hlt]
  · exact expandStep_getD_length m

theorem expand_length (n : Nat) (m : List Word) : (expand n m).length = m.length + n := by
  induction n generalizing m with
  | zero => rfl
  | succ n ih => rw [expand, ih, expandStep_length]; omega

theorem expand_getD_of_lt (n : Nat) {m : List Word} {k : Nat} (hk : k < m.length) :
    (expand n m).getD k 0 = m.getD k 0 := by
  induction n generalizing m with
  | zero => rfl
  | succ n ih => rw [expand, ih (by rw [expandStep_length]; omega), expandStep_getD_of_lt hk]

theorem expand_followsRecurrence (n : Nat) {m : List Word} (h : FollowsRecurrence m) :
    FollowsRecurrence (expand n m) := by
  induction n generalizing m with
  | zero => exact h
  | succ n ih => exact ih (expandStep_followsRecurrence h)

theorem split_length (block : List Byte) : (split block).length = 16 := by simp [split]

theorem schedule_length (block : List Byte) : (schedule block).length = 64 := by
  rw [schedule, expand_length, split_length]

/-- The first sixteen words are the block's own (R128). -/
theorem schedule_getD_of_lt (block : List Byte) {t : Nat} (ht : t < 16) :
    (schedule block).getD t 0 = blockWord block t := by
  rw [schedule, expand_getD_of_lt 48 (by rw [split_length]; exact ht)]
  simp [split, List.getD_eq_getElem?_getD, ht]

/-- The later words follow from those before them (R129). -/
theorem schedule_followsRecurrence (block : List Byte) : FollowsRecurrence (schedule block) :=
  expand_followsRecurrence 48 fun k hk hlen => by rw [split_length] at hlen; omega

/-! ## The rounds on the 16-word window -/

/-- Schedule word and round constant of each round. -/
def roundInputs (block : List Byte) : List (Word × Word) := (schedule block).zip roundConstants

theorem roundInputs_length (block : List Byte) : (roundInputs block).length = 64 := by
  rw [roundInputs, List.length_zip, schedule_length]
  rfl

theorem roundInputs_take_succ (block : List Byte) {i : Nat} (hi : i < 64) :
    (roundInputs block).take (i + 1) =
      (roundInputs block).take i ++ [((schedule block).getD i 0, roundConstant i)] := by
  have hk : i < roundConstants.length := hi
  have hm : i < (schedule block).length := by rw [schedule_length]; exact hi
  rw [List.take_add_one, List.getElem?_eq_getElem (by rw [roundInputs_length]; exact hi)]
  simp only [roundInputs, List.getElem_zip, roundConstant, List.getD_eq_getElem?_getD,
    List.getElem?_eq_getElem hk, List.getElem?_eq_getElem hm, Option.getD_some, Option.toList_some]

/-- The window holds, at their indices modulo 16, the last sixteen schedule words before word `i` (R239). -/
def HoldsWindow (block : List Byte) (w : Vector Word 16) (i : Nat) : Prop :=
  ∀ k, k < i → i ≤ k + 16 → w[k % 16]'(Nat.mod_lt k (by decide)) = (schedule block).getD k 0

theorem HoldsWindow.set {block : List Byte} {w : Vector Word 16} {i : Nat} (h : HoldsWindow block w i) :
    HoldsWindow block (w.set (i % 16) ((schedule block).getD i 0) (Nat.mod_lt i (by decide))) (i + 1) := by
  intro k hk hki
  rw [Vector.getElem_set]
  obtain rfl | hlt : k = i ∨ k < i := by omega
  · rw [if_pos rfl]
  · rw [if_neg (by omega)]
    exact h k hlt (by omega)

/-- On such a window the datapath computes the schedule's own word. -/
theorem State.windowWord_eq {s : State} {i : Nat} (h : HoldsWindow s.block s.window i) (hi : i < 64) :
    s.windowWord i = (schedule s.block).getD i 0 := by
  by_cases h16 : i < 16
  · rw [schedule_getD_of_lt _ h16]
    simp only [State.windowWord, if_pos h16]
  · rw [schedule_followsRecurrence s.block i (by omega) (by rw [schedule_length]; exact hi)]
    have hback := h (i - 16) (by omega) (by omega)
    simp only [show (i - 16) % 16 = i % 16 by omega] at hback
    simp only [State.windowWord, if_neg h16, hback, h (i - 2) (by omega) (by omega),
      h (i - 7) (by omega) (by omega), h (i - 15) (by omega) (by omega)]

/-- The state with these internal registers and this phase. -/
def State.withInternal (s : State) (work : Working) (window : Vector Word 16) (round : Fin 65) (p : Phase) : State :=
  { s with work := work, window := window, round := round, phase := p }

/-- A compression leaves nothing of the internal registers behind (R28). -/
theorem State.withInternal_endCompression (s : State) (work : Working) (window : Vector Word 16) (round : Fin 65)
    (p : Phase) : (s.withInternal work window round p).endCompression = s.endCompression.goto p := rfl

/-- `s` after LOAD and `i` rounds of a compression that returns to `ret`, with `w` in the schedule window. -/
def State.afterRounds (s : State) (ret : Return) (w : Vector Word 16) (i : Nat) : State :=
  s.withInternal (rounds ((roundInputs s.block).take i) (loadWorking s.h)) w (Fin.ofNat 65 i)
    (if i = 64 then .compress .add ret else .compress .round ret)

theorem State.afterRounds_h (s : State) (ret : Return) (w : Vector Word 16) (i : Nat) :
    (s.afterRounds ret w i).h = s.h := rfl

theorem State.afterRounds_work (s : State) (ret : Return) (w : Vector Word 16) (i : Nat) :
    (s.afterRounds ret w i).work = rounds ((roundInputs s.block).take i) (loadWorking s.h) := rfl

/-- ROUND(i) advances the working variables by round `i` and puts schedule word `i` into the window. -/
theorem microStep_afterRounds (s : State) (ret : Return) {w : Vector Word 16} {i : Nat}
    (h : HoldsWindow s.block w i) (hi : i < 64) :
    microStep (s.afterRounds ret w i) = .next (s.afterRounds ret
      (w.set (i % 16) ((schedule s.block).getD i 0) (Nat.mod_lt i (by decide))) (i + 1)) := by
  have hphase : (s.afterRounds ret w i).phase = .compress .round ret := if_neg (by omega)
  have hround : (s.afterRounds ret w i).round.val = i := Nat.mod_eq_of_lt (by omega)
  have hword : (s.afterRounds ret w i).windowWord i = (schedule s.block).getD i 0 := State.windowWord_eq h hi
  simp only [microStep, hphase, State.roundPhase, hround, hword, if_pos hi]
  simp only [State.afterRounds, State.withInternal, roundInputs_take_succ s.block hi, rounds_append]

/-- LOAD and the first `i` rounds. -/
theorem microRun_rounds (s : State) (ret : Return) (i : Nat) (hi : i ≤ 64) :
    ∃ w, HoldsWindow s.block w i ∧
      microRun (1 + i) (s.goto (.compress .load ret)) = .next (s.afterRounds ret w i) := by
  induction i with
  | zero => exact ⟨s.window, fun k hk => absurd hk (Nat.not_lt_zero k), rfl⟩
  | succ i ih =>
    obtain ⟨w, hw, hrun⟩ := ih (by omega)
    refine ⟨_, hw.set, ?_⟩
    rw [← Nat.add_assoc, microRun_trans hrun]
    exact microRun_one (microStep_afterRounds s ret hw (by omega))

/-- After round 63 the final addition makes the working variables the compressed chaining value (R132). -/
theorem State.afterRounds_addWorking (s : State) (ret : Return) (w : Vector Word 16) :
    addWorking (s.afterRounds ret w 64).h (s.afterRounds ret w 64).work = compress s.h s.block := by
  rw [State.afterRounds_h, State.afterRounds_work, List.take_of_length_le (le_of_eq (roundInputs_length s.block)),
    roundInputs, compress_eq]

theorem State.afterRounds_endCompression (s : State) (ret : Return) (w : Vector Word 16) :
    (s.afterRounds ret w 64).endCompression = s.endCompression.goto (.compress .add ret) :=
  s.withInternal_endCompression _ w _ _

/-! ## The way on does not depend on the phase it is taken from -/

section
variable (s : State) (p : Phase)

theorem State.goto_absorbNext (rest : List Byte) : (s.goto p).absorbNext rest = s.absorbNext rest := by
  cases rest <;> rfl

theorem State.goto_returnTo (ret : Return) : (s.goto p).returnTo ret = s.returnTo ret := by
  cases ret with
  | absorb rest => exact s.countBlock.goto_absorbNext p rest
  | zeroFresh => rfl
  | done => rfl

end

/-- The 66 phases of a compression leave the state of the compression executed at once, and return to the caller's phase
(R133, R239). -/
theorem microRun_compress (s : State) (ret : Return) :
    microRun 66 (s.goto (.compress .load ret)) = .next (s.compressBuf.returnTo ret) := by
  obtain ⟨w, -, hrun⟩ := microRun_rounds s ret 64 (le_refl 64)
  have hadd : (s.afterRounds ret w 64).addPhase ret = s.compressBuf.returnTo ret := by
    rw [State.addPhase, State.afterRounds_addWorking, State.afterRounds_endCompression]
    exact s.compressBuf.goto_returnTo (.compress .add ret) ret
  rw [show 66 = 1 + 64 + 1 from rfl, microRun_trans hrun, ← hadd]
  exact microRun_one rfl

/-! ## The phases of a command -/

theorem State.toIdle_of_idle {s : State} (h : s.phase = .idle) : s.toIdle = s.respond .ok := by
  simp only [State.toIdle, State.goto, ← h]

theorem microRun_step {s t : State} (h : microStep s = .next t) (k : Nat) : microRun (1 + k) s = microRun k t :=
  microRun_trans (microRun_one h)

/-- ABSORB of one byte, and the compression of the block that it fills: 1 phase, or 67. -/
theorem microRun_absorbNext_cons {x : Byte} (rest : List Byte) {s u : State} (h : absorb x s = .next u) :
    microRun (if s.blockLen.toNat = 63 then 67 else 1) (s.absorbNext (x :: rest)) = .next (u.absorbNext rest) := by
  obtain ⟨hl, rfl⟩ := absorb_eq_next.1 h
  have hstep : microStep (s.absorbNext (x :: rest)) = .next (s.absorbPhase (x :: rest)) := if_pos hl
  have hlen := s.appendByte_blockLen_toNat x hl
  by_cases hfull : s.blockLen.toNat = 63
  · have h64 : (s.appendByte x).blockLen = 64 := BitVec.eq_of_toNat_eq (by rw [hlen, hfull]; rfl)
    have hphase : s.absorbPhase (x :: rest) = (s.appendByte x).goto (.compress .load (.absorb rest)) := if_pos h64
    rw [if_pos hfull, State.appendByte_full x hfull, microRun_step hstep 66, hphase, microRun_compress]
    rfl
  · have h64 : (s.appendByte x).blockLen ≠ 64 := fun hc => by rw [hc] at hlen; simp at hlen; omega
    have hphase : s.absorbPhase (x :: rest) = (s.appendByte x).absorbNext rest := if_neg h64
    rw [if_neg hfull, State.appendByte_not_full x (by omega), microRun_one hstep, hphase]

theorem absorb_blockLen_toNat {x : Byte} {s u : State} (h : absorb x s = .next u) :
    u.blockLen.toNat = if s.blockLen.toNat = 63 then 0 else s.blockLen.toNat + 1 := by
  obtain ⟨hl, rfl⟩ := absorb_eq_next.1 h
  by_cases hfull : s.blockLen.toNat = 63
  · rw [if_pos hfull, State.appendByte_full x hfull]
    rfl
  · rw [if_neg hfull, State.appendByte_not_full x (by omega), State.appendByte_blockLen_toNat s x hl]

/-- ABSORB byte by byte ends where the bytes absorbed at once end: a phase for each byte, and 66 for each full block. -/
theorem microRun_absorbNext (xs : List Byte) {s t : State} (h : absorbAll xs s = .next t) :
    ∃ k, k ≤ xs.length + 66 * ((s.blockLen.toNat + xs.length) / 64) ∧
      microRun k (s.absorbNext xs) = .next t.toIdle := by
  induction xs generalizing s with
  | nil => cases h; exact ⟨0, Nat.zero_le _, rfl⟩
  | cons x rest ih =>
    obtain ⟨u, hu, ht⟩ := absorbAll_cons_eq_next.1 h
    obtain ⟨k, hk, hrun⟩ := ih ht
    refine ⟨_, ?_, (microRun_trans (microRun_absorbNext_cons rest hu)).trans hrun⟩
    rw [absorb_blockLen_toNat hu] at hk
    rw [List.length_cons]
    split at hk
    · rw [if_pos ‹_›]; omega
    · rw [if_neg ‹_›]; omega

/-- From ABSORB to IDLE; with no byte left the phase writes nothing but the way to IDLE. -/
theorem microRun_absorb (xs : List Byte) {s t : State} (h : absorbAll xs s = .next t) :
    ∃ k, k ≤ 1 + xs.length + 66 * ((s.blockLen.toNat + xs.length) / 64) ∧
      microRun k (s.goto (.absorb xs)) = .next t.toIdle := by
  cases xs with
  | nil => cases h; exact ⟨1, by omega, rfl⟩
  | cons x rest =>
    obtain ⟨k, hk, hrun⟩ := microRun_absorbNext (x :: rest) h
    exact ⟨k, by omega, hrun⟩

/-- DECODE of an UPDATE and the phases that follow it. -/
theorem microRun_decodeUpdate (xs : List Byte) {s t : State} (h : update xs s = .next t) :
    ∃ k, k ≤ 1 + xs.length + 66 * ((s.blockLen.toNat + xs.length) / 64) ∧
      microRun k (s.decodeUpdate xs) = .next t.toIdle := by
  rcases update_eq_next.1 h with ⟨hf, rfl⟩ | ⟨hf, hl, rfl⟩ | ⟨hf, hl, habs⟩
  · exact ⟨1, by omega, by simp only [State.decodeUpdate, hf]; rfl⟩
  · exact ⟨1, by omega, by simp only [State.decodeUpdate, hf, hl]; rfl⟩
  · simpa [State.decodeUpdate, hf, hl] using microRun_absorb xs habs

theorem microRun_lenField (s : State) :
    microRun 68 (s.goto .lenField) = .next s.writeLength.compressBuf.seal.toIdle := by
  have hlen : microStep (s.goto .lenField) = .next (s.writeLength.goto (.compress .load .done)) := rfl
  rw [show 68 = 1 + (66 + 1) from rfl, microRun_step hlen, microRun_trans (microRun_compress _ _)]
  exact microRun_one rfl

/-- The padding's phases: PAD80 and ZERO56, or PAD80, ZERO64, a compression and ZEROFRESH. -/
theorem microRun_pad80 {s : State} (h : s.blockLen.toNat < 64) :
    microRun (if s.blockLen.toNat < 56 then 2 else 69) (s.goto .pad80) = .next (s.pad.goto .lenField) := by
  have hpad : microStep (s.goto .pad80) =
      .next (s.mark80.goto (if s.blockLen.toNat < 56 then .zero56 else .zero64)) := if_pos h
  unfold State.pad
  by_cases hroom : s.blockLen.toNat < 56
  · simp only [if_pos hroom] at hpad ⊢
    exact (microRun_step hpad 1).trans (microRun_one rfl)
  · simp only [if_neg hroom] at hpad ⊢
    have hzero : microStep (s.mark80.goto .zero64) =
        .next ((s.mark80.zeroBuf (s.mark80.blockLen.toNat + 1) 64).goto (.compress .load .zeroFresh)) := rfl
    rw [show 69 = 1 + (1 + (66 + 1)) from rfl, microRun_step hpad, microRun_step hzero,
      microRun_trans (microRun_compress _ _)]
    exact microRun_one rfl

theorem microRun_decode {s : State} {w : Word} {k : Nat} {t : State}
    (h : microRun k (s.decodePhase w) = .next t) : microRun (1 + k) (s.startCommand w) = .next t := by
  have hdec : microStep (s.startCommand w) = .next ((s.startCommand w).decodePhase w) := rfl
  have hgoto : (s.startCommand w).decodePhase w = s.decodePhase w := rfl
  rw [microRun_step hdec, hgoto, h]

/-- The number `N` of a legal UPDATE_DIN (R74(e)). -/
theorem decode_updateDin_le {w : Word} {n : BitVec 3} (h : decode w = .ok (.updateDin n)) : n.toNat ≤ 4 := by
  unfold decode at h
  grind

/-- The phases after DECODE end in the state of the command executed at once. -/
theorem microRun_decodePhase {s t : State} {w : Word} (hb : s.blockLen.toNat ≤ 63)
    (h : executeWord w s = .next t) :
    ∃ k, k ≤ 137 ∧ microRun k (s.decodePhase w) = .next t.toIdle := by
  rcases executeWord_cases h with ⟨⟨e, he⟩, rfl⟩ | ⟨i, hi, hexec⟩
  · exact ⟨1, by omega, by simp only [State.decodePhase, he]; rfl⟩
  cases i with
  | init =>
    cases hexec
    exact ⟨1, by omega, by simp only [State.decodePhase, hi]; rfl⟩
  | updateByte b =>
    obtain ⟨k, hk, hrun⟩ := microRun_decodeUpdate [b] hexec
    simp only [List.length_singleton] at hk
    exact ⟨k, by omega, by simpa only [State.decodePhase, hi] using hrun⟩
  | updateDin n =>
    have hn := decode_updateDin_le hi
    obtain ⟨k, hk, hrun⟩ := microRun_decodeUpdate (dinBytes s.din n) ((execUpdateDin_ok s hn).symm.trans hexec)
    rw [dinBytes_length s.din hn] at hk
    exact ⟨k, by omega, by simpa only [State.decodePhase, hi] using hrun⟩
  | finalize =>
    rcases execFinalize_eq_next.1 hexec with ⟨hf, rfl⟩ | ⟨hf, hl, rfl⟩
    · exact ⟨1, by omega, by simp only [State.decodePhase, hi, hf]; rfl⟩
    · refine ⟨(if s.blockLen.toNat < 56 then 2 else 69) + 68, by split <;> omega, ?_⟩
      simp only [State.decodePhase, hi, hf, Bool.false_eq_true, if_false]
      rw [microRun_trans (microRun_pad80 hl), microRun_lenField]

/-- With `block_len` at most 63 every command completes. -/
theorem exec_completes {s : State} (i : Instr) (hb : s.blockLen.toNat ≤ 63) : ∃ t, exec i s = .next t := by
  have hupdate : ∀ xs, ∃ t, update xs s = .next t := by
    intro xs
    unfold update
    split_ifs
    · exact ⟨_, rfl⟩
    · exact absorbAll_completes xs s hb
    · exact ⟨_, rfl⟩
  cases i with
  | init => exact ⟨_, rfl⟩
  | updateByte b => exact hupdate [b]
  | updateDin n =>
    simp only [exec, execUpdateDin]
    split_ifs
    · exact ⟨_, rfl⟩
    · exact hupdate _
  | finalize =>
    simp only [exec, execFinalize, if_pos (show s.blockLen.toNat < 64 by omega)]
    split_ifs <;> exact ⟨_, rfl⟩

theorem executeWord_completes {s : State} (w : Word) (hb : s.blockLen.toNat ≤ 63) :
    ∃ t, executeWord w s = .next t := by
  cases hd : decode w with
  | error e => exact ⟨_, executeWord_error s hd⟩
  | ok i => rw [executeWord_ok s hd]; exact exec_completes i hb

/-- Settles O32: one phase decodes the word, and at most 137 more do what the command does at once. -/
theorem sequencerRefinesCommand : Obligations.SequencerRefinesCommand := by
  intro s w hinv
  obtain ⟨u, hu⟩ := executeWord_completes w hinv.blockLen_le
  obtain ⟨k, hk, hrun⟩ := microRun_decodePhase hinv.blockLen_le hu
  have hidle : u.phase = .idle := (executeWord_keepsHostSide hu).phase.trans hinv.idle
  rw [State.toIdle_of_idle hidle] at hrun
  exact ⟨1 + k, u, by omega, hu, hidle, microRun_decode hrun⟩

/-! ## A property that every step from IDLE keeps -/

/-- Nothing differs but DIN, the internal registers, the host's side and the model's record. -/
structure SameUnit (s t : State) : Prop where
  phase : t.phase = s.phase
  h : t.h = s.h
  buf : t.buf = s.buf
  bufDraw : t.bufDraw = s.bufDraw
  blockLen : t.blockLen = s.blockLen
  bitLen : t.bitLen = s.bitLen
  finalized : t.finalized = s.finalized
  err : t.err = s.err
  errCode : t.errCode = s.errCode

/-- A property of the unit that reset, illegal words and commands keep is kept by every step from IDLE. -/
theorem step_keeps {P : State → Prop} (hsame : ∀ {s t : State}, P s → SameUnit s t → P t)
    (hreset : ∀ s : State, P s.platformReset) (hillegal : ∀ s : State, P s → P (s.reject .illegalCmd))
    (hexec : ∀ {i : Instr} {s t : State}, P s → exec i s = .next t → P t)
    {s t : State} (hs : P s) (hidle : s.phase = .idle) (h : step s = .next t) : P t := by
  rcases step_cases hidle h with ⟨-, rfl⟩ | ⟨m, rest, -, hm⟩
  · exact hs
  have hrest : P { s with host := rest } := hsame hs ⟨rfl, rfl, rfl, rfl, rfl, rfl, rfl, rfl, rfl⟩
  rcases serve_cases hm with ⟨-, rfl⟩ | rfl | ⟨v, rfl⟩ | ⟨w, u, -, hu, rfl⟩ | ⟨v, -, rfl⟩ | rfl
  · exact hreset _
  · exact hsame hrest ⟨rfl, rfl, rfl, rfl, rfl, rfl, rfl, rfl, rfl⟩
  · exact hsame hrest ⟨rfl, rfl, rfl, rfl, rfl, rfl, rfl, rfl, rfl⟩
  · have hPu : P u := by
      rcases executeWord_cases hu with ⟨-, rfl⟩ | ⟨i, -, hi⟩
      · exact hillegal _ hrest
      · exact hexec hrest hi
    exact hsame hPu ⟨rfl, rfl, rfl, rfl, rfl, rfl, rfl, rfl, rfl⟩
  · exact hsame hrest ⟨rfl, rfl, rfl, rfl, rfl, rfl, rfl, rfl, rfl⟩
  · exact hsame hrest ⟨rfl, rfl, rfl, rfl, rfl, rfl, rfl, rfl, rfl⟩

/-! ## The invariants -/

theorem Inv.sameUnit {s t : State} (h : Inv s) (hu : SameUnit s t) : Inv t :=
  h.congr hu.phase hu.buf hu.blockLen hu.bitLen hu.finalized hu.err hu.errCode

/-- An open context without a byte and without an error meets the invariants. -/
theorem inv_of_fresh {s : State} (hp : s.phase = .idle) (hb : s.buf = []) (hl : s.blockLen = 0) (hn : s.bitLen = 0)
    (hf : s.finalized = false) (he : s.err = false) (hc : s.errCode = 0) : Inv s := by
  constructor <;> simp [hp, hb, hl, hn, hf, he, hc, Memory.wf, Memory.wfFrom]

theorem platformReset_inv (s : State) : Inv s.platformReset := inv_of_fresh rfl rfl rfl rfl rfl rfl rfl

theorem Inv.initContext {s : State} (h : Inv s) : Inv s.initContext := inv_of_fresh h.idle rfl rfl rfl rfl rfl rfl

theorem errCodeBits_ne_zero (code : ErrCode) : errCodeBits code ≠ 0 := by cases code <;> decide

theorem errCodeBits_le (code : ErrCode) : (errCodeBits code).toNat ≤ 3 := by cases code <;> decide

theorem errCodeBits_eq_two {code : ErrCode} : errCodeBits code = 2 ↔ code = .contextMisuse := by
  cases code <;> decide

/-- A rejection keeps the invariants, CONTEXT_MISUSE while FINALIZED is 1 (R203). -/
theorem Inv.reject {s : State} (h : Inv s) {code : ErrCode} (hcode : code = .contextMisuse → s.finalized = true) :
    Inv (s.reject code) := by
  exact
    { idle := h.idle
      bufWf := h.bufWf
      blockLen_le := h.blockLen_le
      bitLen_open := h.bitLen_open
      length_open := h.length_open
      blockLen_final := h.blockLen_final
      bitLen_final := h.bitLen_final
      err_iff := ⟨nofun, (absurd · (errCodeBits_ne_zero code))⟩
      errCode_le := errCodeBits_le code
      misuse_final := fun hc => hcode (errCodeBits_eq_two.1 hc) }

/-- Within the length bound `Absorb` lengthens the message by one byte: `bit_len + 8 * block_len` grows by 8, and
`bit_len` stays a multiple of 512 (R100, R104). -/
theorem absorb_lengths {x : Byte} {s t : State} (hn : s.bitLen.toNat % 512 = 0)
    (hl : s.bitLen.toNat + 8 * (s.blockLen.toNat + 1) < 2 ^ 64) (h : absorb x s = .next t) :
    t.bitLen.toNat % 512 = 0 ∧
      t.bitLen.toNat + 8 * t.blockLen.toNat = s.bitLen.toNat + 8 * (s.blockLen.toNat + 1) := by
  obtain ⟨hb, rfl⟩ := absorb_eq_next.1 h
  by_cases hfull : s.blockLen.toNat = 63
  · have hbits : (s.bitLen + 512).toNat = s.bitLen.toNat + 512 := by
      rw [BitVec.toNat_add, show BitVec.toNat (512 : BitVec 64) = 512 from rfl]
      omega
    rw [State.appendByte_full x hfull]
    simp only [State.countBlock_bitLen, State.countBlock_blockLen, State.compressBuf_bitLen, State.appendByte_bitLen,
      hbits]
    simp only [BitVec.ofNat_eq_ofNat, BitVec.toNat_zero]
    omega
  · rw [State.appendByte_not_full x (by omega), State.appendByte_blockLen_toNat s x hb]
    exact ⟨hn, rfl⟩

theorem absorb_inv {x : Byte} {s t : State} (hs : Inv s) (hf : s.finalized = false)
    (hl : s.bitLen.toNat + 8 * (s.blockLen.toNat + 1) < 2 ^ 64) (h : absorb x s = .next t) : Inv t := by
  obtain ⟨hmod, hsum⟩ := absorb_lengths (hs.bitLen_open hf) hl h
  obtain ⟨hopen, herrs, hside⟩ := absorb_frame h
  rw [hf] at hopen
  exact
    { idle := hside.phase.trans hs.idle
      bufWf := absorb_wf h hs.bufWf
      blockLen_le := absorb_blockLen_le h
      bitLen_open := fun _ => hmod
      length_open := fun _ => by omega
      blockLen_final := fun hfin => by simp [hopen] at hfin
      bitLen_final := fun hfin => by simp [hopen] at hfin
      err_iff := by rw [herrs.err, herrs.errCode]; exact hs.err_iff
      errCode_le := by rw [herrs.errCode]; exact hs.errCode_le
      misuse_final := fun hc => by
        rw [herrs.errCode] at hc
        simp [hs.misuse_final hc] at hf }

theorem absorbAll_inv (xs : List Byte) {s t : State} (hs : Inv s) (hf : s.finalized = false)
    (hl : s.bitLen.toNat + 8 * (s.blockLen.toNat + xs.length) < 2 ^ 64) (h : absorbAll xs s = .next t) : Inv t := by
  induction xs generalizing s with
  | nil => cases h; exact hs
  | cons x xs ih =>
    obtain ⟨u, hu, ht⟩ := absorbAll_cons_eq_next.1 h
    rw [List.length_cons] at hl
    obtain ⟨-, hsum⟩ := absorb_lengths (hs.bitLen_open hf) (by omega) hu
    exact ih (absorb_inv hs hf (by omega) hu) ((absorb_frame hu).1.trans hf) (by omega) ht

/-- After FINALIZE `bit_len` is the message's length (R155). -/
theorem State.finalize_bitLen (s : State) : s.pad.writeLength.compressBuf.seal.bitLen = s.messageBits := by
  obtain ⟨hl, hn, -⟩ := s.pad_frame
  change s.pad.messageBits = s.messageBits
  rw [State.messageBits, State.messageBits, hl, hn]

theorem Inv.finalize {s : State} (h : Inv s) (hf : s.finalized = false) :
    Inv s.pad.writeLength.compressBuf.seal := by
  obtain ⟨herrs, hside⟩ := s.finalize_frame
  have hbits := s.messageBits_toNat (h.length_open hf)
  have hmod := h.bitLen_open hf
  exact
    { idle := hside.phase.trans h.idle
      bufWf := rfl
      blockLen_le := Nat.zero_le 63
      bitLen_open := fun hc => nomatch hc
      length_open := fun hc => nomatch hc
      blockLen_final := fun _ => rfl
      bitLen_final := fun _ => by rw [State.finalize_bitLen, hbits]; omega
      err_iff := by rw [herrs.err, herrs.errCode]; exact h.err_iff
      errCode_le := by rw [herrs.errCode]; exact h.errCode_le
      misuse_final := fun _ => rfl }

theorem exec_inv {i : Instr} {s t : State} (hs : Inv s) (h : exec i s = .next t) : Inv t := by
  rcases exec_cases h with ⟨-, rfl⟩ | ⟨-, code, rfl, hcode⟩ | ⟨-, hf, hl, habs⟩ | ⟨-, hf, -, rfl⟩
  · exact hs.initContext
  · refine hs.reject fun hmisuse => ?_
    rcases hcode with ⟨-, hf⟩ | hc | ⟨hc, -⟩
    · exact hf
    · simp [hc] at hmisuse
    · simp [hc] at hmisuse
  · exact absorbAll_inv _ hs hf (of_decide_eq_true hl) habs
  · exact hs.finalize hf

/-- Settles O40: reset and every command keep the invariants, and nothing else that a step does touches them. -/
theorem stepKeepsInvariants : Obligations.StepKeepsInvariants := fun _ _ hs h =>
  step_keeps Inv.sameUnit platformReset_inv (fun _ hs => hs.reject (nomatch ·)) exec_inv hs hs.idle h

/-! ## An UPDATE carries the held message on -/

/-- A held message of which `block_len` and `bit_len` count every bit (R41(b)). -/
theorem Absorbed.lengths {s : State} {m : List Byte} (h : Absorbed s m) :
    s.bitLen.toNat + 8 * s.blockLen.toNat = 8 * m.length := by
  rw [h.bitLen_eq, h.blockLen_eq]
  omega

theorem Absorbed.blockLen_le {s : State} {m : List Byte} (h : Absorbed s m) : s.blockLen.toNat ≤ 63 := by
  rw [h.blockLen_eq]
  omega

/-- Byte `j` of block `k` of a message. -/
theorem getD_block (bytes : List Byte) (k : Nat) {j : Nat} (hj : j < 64) :
    ((bytes.drop (64 * k)).take 64).getD j 0 = bytes.getD (64 * k + j) 0 := by
  simp [List.getD_eq_getElem?_getD, hj]

/-- Sixty-four bytes that are those of block `k` of a message are that block. -/
theorem map_range_eq_block {f : Nat → Byte} {bytes : List Byte} {k : Nat} (hl : 64 * k + 64 ≤ bytes.length)
    (h : ∀ j, j < 64 → f j = bytes.getD (64 * k + j) 0) :
    (List.range 64).map f = (bytes.drop (64 * k)).take 64 := by
  refine List.ext_getElem (by simp only [List.length_map, List.length_range, List.length_take, List.length_drop]; omega)
    fun j hj hj' => ?_
  rw [List.length_map, List.length_range] at hj
  rw [List.getElem_map, List.getElem_range, h j hj, ← getD_block bytes k hj, List.getD_eq_getElem?_getD,
    List.getElem?_eq_getElem hj', Option.getD_some]

/-- With the byte put behind the block, `Buf` holds the last bytes of the lengthened message. -/
theorem Absorbed.readBuf_appendByte {s : State} {m : List Byte} (h : Absorbed s m) (x : Byte) {j : Nat}
    (hj : j ≤ m.length % 64) :
    (s.appendByte x).readBuf j = (m ++ [x]).getD (64 * (m.length / 64) + j) 0 := by
  rw [State.readBuf_appendByte, h.blockLen_eq]
  split
  · subst j
    rw [Nat.div_add_mod, List.getD_append_right _ _ _ _ (le_refl _), Nat.sub_self]
    rfl
  · rw [h.buffered j (by omega), List.getD_append _ _ _ _ (by omega)]

theorem absorb_absorbed {x : Byte} {s t : State} {m : List Byte} (hs : Absorbed s m)
    (hm : 8 * (m.length + 1) < 2 ^ 64) (h : absorb x s = .next t) : Absorbed t (m ++ [x]) := by
  have hlen := hs.lengths
  have hb := hs.blockLen_eq
  obtain ⟨hmod, hsum⟩ := absorb_lengths (x := x) (t := t) (by rw [hs.bitLen_eq]; omega) (by omega) h
  obtain ⟨hl, rfl⟩ := absorb_eq_next.1 h
  have hm1 : (m ++ [x]).length = m.length + 1 := by simp
  by_cases hfull : s.blockLen.toNat = 63
  · rw [State.appendByte_full x hfull] at hsum hmod ⊢
    have hdiv : (m ++ [x]).length / 64 = m.length / 64 + 1 := by omega
    have hzero : (s.appendByte x).compressBuf.countBlock.blockLen.toNat = 0 := rfl
    exact
      { opened := hs.opened
        bounded := by omega
        chain := by
          rw [hdiv, hashBlocks_succ, hashBlocks_append _ _ _ _ (by omega), ← hs.chain,
            ← map_range_eq_block (by omega) fun j hj => hs.readBuf_appendByte x (by omega)]
          rfl
        blockLen_eq := by omega
        bitLen_eq := by omega
        buffered := fun j hj => by omega }
  · rw [State.appendByte_not_full x (by omega)] at hsum hmod ⊢
    have hdiv : (m ++ [x]).length / 64 = m.length / 64 := by omega
    have hblock := s.appendByte_blockLen_toNat x hl
    exact
      { opened := hs.opened
        bounded := by omega
        chain := by
          rw [hdiv, hashBlocks_append _ _ _ _ (by omega), ← hs.chain]
          rfl
        blockLen_eq := by omega
        bitLen_eq := by omega
        buffered := fun j hj => by rw [hdiv]; exact hs.readBuf_appendByte x (by omega) }

theorem absorbAll_absorbed (xs : List Byte) {s t : State} {m : List Byte} (hs : Absorbed s m)
    (hm : 8 * (m.length + xs.length) < 2 ^ 64) (h : absorbAll xs s = .next t) : Absorbed t (m ++ xs) := by
  induction xs generalizing s m with
  | nil => cases h; rwa [List.append_nil]
  | cons x xs ih =>
    obtain ⟨u, hu, ht⟩ := absorbAll_cons_eq_next.1 h
    rw [List.length_cons] at hm
    rw [List.append_cons]
    exact ih (absorb_absorbed hs (by omega) hu) (by rw [List.length_append, List.length_singleton]; omega) ht

/-- Settles O43: the guards let the UPDATE through, and each byte absorbed goes behind the message. -/
theorem updateExtendsMessage : Obligations.UpdateExtendsMessage := by
  intro s m i hs hi hm
  have hlen := hs.lengths
  obtain ⟨t, ht⟩ := absorbAll_completes (absorbedBytes s.din i) s hs.blockLen_le
  obtain ⟨-, herrs, hside⟩ := absorbAll_frame _ ht
  exact ⟨t, (exec_update hi hs.opened (by omega)).trans ht, absorbAll_absorbed _ hs hm ht, herrs, hside⟩

/-! ## The blocks that FINALIZE compresses -/

/-- Byte `a` of the block with 0x80 behind its bytes and zeros behind that (R150). -/
def State.markedByte (s : State) (a : Nat) : Byte :=
  if a < s.blockLen.toNat then s.readBuf a else if a = s.blockLen.toNat then 0x80 else 0x00

theorem getD_replicate_self {α : Type} (n i : Nat) (d : α) : (List.replicate n d).getD i d = d := by
  rw [List.getD_eq_getElem?_getD, List.getElem?_getD_replicate_default_eq]

theorem be64inv_getD (v : BitVec 64) {k : Nat} (hk : k < 8) : (be64inv v).getD k 0 = longByte v k := by
  interval_cases k <;> rfl

/-- The mark and the zeros up to index `b` (R151, R152). -/
theorem State.readBuf_mark80_zeroBuf (s : State) {a b : Nat} (ha : a < b) (hb : s.blockLen.toNat < b) :
    (s.mark80.zeroBuf (s.blockLen.toNat + 1) b).readBuf a = s.markedByte a := by
  rw [State.zeroBuf_eq, State.readBuf_writeBuf, State.mark80_eq, State.readBuf_writeBuf, getD_replicate_self,
    List.length_replicate, List.length_singleton, State.markedByte]
  by_cases hlt : a < s.blockLen.toNat
  · rw [if_neg (by omega), if_neg (by omega), if_pos hlt]
  · by_cases heq : a = s.blockLen.toNat
    · rw [if_neg (by omega), if_pos (by omega), if_neg hlt, if_pos heq, heq, Nat.sub_self]
      rfl
    · rw [if_pos (by omega), if_neg hlt, if_neg heq]

theorem State.readBuf_padNoRoom (s : State) {a : Nat} (ha : a < 56) : s.padNoRoom.readBuf a = 0x00 := by
  rw [State.padNoRoom, State.zeroBuf_eq, State.readBuf_writeBuf, if_pos (by simpa using ha), getD_replicate_self]

/-- A block with its length field (R150, R153). -/
theorem State.block_writeLength {s : State} {f : Nat → Byte} (h : ∀ a, a < 56 → s.readBuf a = f a) :
    s.writeLength.block = (List.range 64).map fun a => if a < 56 then f a else longByte s.messageBits (a - 56) := by
  refine State.block_eq_map fun a ha => ?_
  rw [State.writeLength_eq, State.readBuf_writeBuf, be64inv_length]
  by_cases hlt : a < 56
  · rw [if_neg (by omega), if_pos hlt, h a hlt]
  · rw [if_pos (by omega), if_neg hlt, be64inv_getD _ (by omega)]

/-- With room for the length FINALIZE compresses one block (R151). -/
theorem State.finalize_h_room {s : State} (hb : s.blockLen.toNat < 56) :
    s.pad.writeLength.compressBuf.seal.h = compress s.h ((List.range 64).map fun a =>
      if a < 56 then s.markedByte a else longByte s.messageBits (a - 56)) := by
  have hpad : s.pad = s.mark80.zeroBuf (s.blockLen.toNat + 1) 56 := if_pos hb
  rw [State.seal_h, State.compressBuf_h, hpad,
    State.block_writeLength fun a ha => s.readBuf_mark80_zeroBuf ha hb]
  rfl

/-- Without room it compresses the marked block, and then one that has only the length (R152). -/
theorem State.finalize_h_noRoom {s : State} (h56 : 56 ≤ s.blockLen.toNat) (hb : s.blockLen.toNat < 64) :
    s.pad.writeLength.compressBuf.seal.h =
      compress (compress s.h ((List.range 64).map s.markedByte)) ((List.range 64).map fun a =>
        if a < 56 then 0x00 else longByte s.messageBits (a - 56)) := by
  have hpad : s.pad = s.mark80.padNoRoom := if_neg (by omega)
  have hblock : (s.mark80.zeroBuf (s.blockLen.toNat + 1) 64).block = (List.range 64).map s.markedByte :=
    State.block_eq_map fun a ha => s.readBuf_mark80_zeroBuf ha hb
  rw [State.seal_h, State.compressBuf_h, hpad, State.block_writeLength fun a ha => s.mark80.readBuf_padNoRoom ha,
    ← hblock]
  rfl

/-! ## The padded message -/

/-- Where the length field of the padded message begins (R158). -/
def lengthField (m : List Byte) : Nat := m.length + 1 + zeroCount m.length

theorem marked_length (m : List Byte) :
    (m ++ [0x80] ++ List.replicate (zeroCount m.length) 0x00).length = lengthField m := by
  rw [List.length_append, List.length_append, List.length_singleton, List.length_replicate, lengthField]

theorem padded_length (m : List Byte) : (padded m).length = lengthField m + 8 := by
  rw [padded, List.length_append, marked_length, be64inv_length]

theorem lengthField_room {m : List Byte} (h : m.length % 64 < 56) : lengthField m = 64 * (m.length / 64) + 56 := by
  simp only [lengthField, zeroCount]
  omega

theorem lengthField_noRoom {m : List Byte} (h : 56 ≤ m.length % 64) :
    lengthField m = 64 * (m.length / 64 + 1) + 56 := by
  simp only [lengthField, zeroCount]
  omega

theorem padded_getD_of_lt {m : List Byte} {i : Nat} (hi : i < lengthField m) :
    (padded m).getD i 0 = if i < m.length then m.getD i 0 else if i = m.length then 0x80 else 0x00 := by
  rw [padded, List.getD_append _ _ _ _ (by rwa [marked_length])]
  by_cases hlt : i < m.length
  · rw [if_pos hlt, List.append_assoc, List.getD_append _ _ _ _ hlt]
  · rw [if_neg hlt, List.append_assoc, List.getD_append_right _ _ _ _ (by omega)]
    by_cases heq : i = m.length
    · rw [if_pos heq, heq, Nat.sub_self]
      rfl
    · rw [if_neg heq, show i - m.length = (i - m.length - 1) + 1 by omega]
      exact getD_replicate_self _ _ _

theorem padded_getD_length (m : List Byte) {k : Nat} (hk : k < 8) :
    (padded m).getD (lengthField m + k) 0 = longByte (BitVec.ofNat 64 (8 * m.length)) k := by
  have hl := marked_length m
  rw [padded, List.getD_append_right _ _ _ _ (by omega), hl, Nat.add_sub_cancel_left, be64inv_getD _ hk]

/-- Chaining over the padded message passes over the message's full blocks as it does without the padding. -/
theorem hashBlocks_padded (m : List Byte) (h : Chain) :
    hashBlocks (m.length / 64) (padded m) h = hashBlocks (m.length / 64) m h := by
  rw [padded, List.append_assoc, List.append_assoc, hashBlocks_append _ _ _ _ (by omega)]

section
variable {s : State} {m : List Byte} (hs : Absorbed s m)
include hs

/-- The marked block is the padded message's at that place, as far as its length field. -/
theorem Absorbed.markedByte_eq {j : Nat} (hj : 64 * (m.length / 64) + j < lengthField m) :
    s.markedByte j = (padded m).getD (64 * (m.length / 64) + j) 0 := by
  rw [padded_getD_of_lt hj, State.markedByte, hs.blockLen_eq]
  by_cases hlt : j < m.length % 64
  · rw [if_pos hlt, if_pos (by omega), hs.buffered j hlt]
  · rw [if_neg hlt, if_neg (show ¬ 64 * (m.length / 64) + j < m.length by omega)]
    exact if_congr (by omega) rfl rfl

theorem Absorbed.messageBits_toNat : s.messageBits.toNat = 8 * m.length := by
  have hb := hs.bounded
  rw [State.messageBits_toNat _ (by rw [hs.lengths]; exact hb), hs.lengths]

theorem Absorbed.messageBits_eq : s.messageBits = BitVec.ofNat 64 (8 * m.length) :=
  BitVec.eq_of_toNat_eq (by rw [hs.messageBits_toNat, BitVec.toNat_ofNat, Nat.mod_eq_of_lt hs.bounded])

theorem Absorbed.finalize_sha256_room (hroom : m.length % 64 < 56) :
    s.pad.writeLength.compressBuf.seal.h = sha256 m := by
  have hfield := lengthField_room hroom
  have hlen := padded_length m
  rw [sha256, show (padded m).length / 64 = m.length / 64 + 1 by omega, hashBlocks_succ, hashBlocks_padded, ← hs.chain,
    State.finalize_h_room (by rw [hs.blockLen_eq]; exact hroom)]
  refine congrArg (compress s.h) (map_range_eq_block (by omega) fun j hj => ?_)
  by_cases hlt : j < 56
  · rw [if_pos hlt, hs.markedByte_eq (by omega)]
  · rw [if_neg hlt, hs.messageBits_eq, ← padded_getD_length m (by omega)]
    congr 1
    omega

theorem Absorbed.finalize_sha256_noRoom (hroom : 56 ≤ m.length % 64) :
    s.pad.writeLength.compressBuf.seal.h = sha256 m := by
  have hfield := lengthField_noRoom hroom
  have hlen := padded_length m
  have hb := hs.blockLen_eq
  have hmarked : (List.range 64).map s.markedByte = ((padded m).drop (64 * (m.length / 64))).take 64 :=
    map_range_eq_block (by omega) fun j hj => hs.markedByte_eq (by omega)
  rw [sha256, show (padded m).length / 64 = m.length / 64 + 1 + 1 by omega, hashBlocks_succ, hashBlocks_succ,
    hashBlocks_padded, ← hs.chain, ← hmarked, State.finalize_h_noRoom (by omega) (by omega)]
  refine congrArg (compress _) (map_range_eq_block (by omega) fun j hj => ?_)
  by_cases hlt : j < 56
  · rw [if_pos hlt, padded_getD_of_lt (by omega), if_neg (by omega), if_neg (by omega)]
  · rw [if_neg hlt, hs.messageBits_eq, ← padded_getD_length m (by omega)]
    congr 1
    omega

/-- FINALIZE leaves the SHA-256 of the held message (R158). -/
theorem Absorbed.finalize_digested : Digested s.pad.writeLength.compressBuf.seal m where
  closed := rfl
  bounded := hs.bounded
  chain := (Nat.lt_or_ge (m.length % 64) 56).elim hs.finalize_sha256_room hs.finalize_sha256_noRoom
  blockLen_eq := rfl
  bitLen_eq := by rw [State.finalize_bitLen, hs.messageBits_toNat]

end

/-! ## Some message or its digest is held -/

/-- The unit holds some message, or its digest. -/
def HoldsMessage (s : State) : Prop := ∃ m, Absorbed s m ∨ Digested s m

theorem HoldsMessage.sameUnit {s t : State} (h : HoldsMessage s) (hu : SameUnit s t) : HoldsMessage t := by
  obtain ⟨m, hm | hm⟩ := h
  · exact ⟨m, .inl (hm.congr hu.h hu.buf hu.bufDraw hu.blockLen hu.bitLen hu.finalized)⟩
  · exact ⟨m, .inr (hm.congr hu.h hu.blockLen hu.bitLen hu.finalized)⟩

theorem HoldsMessage.reject {s : State} (h : HoldsMessage s) (code : ErrCode) : HoldsMessage (s.reject code) := by
  obtain ⟨m, hm | hm⟩ := h
  · exact ⟨m, .inl (hm.congr rfl rfl rfl rfl rfl rfl)⟩
  · exact ⟨m, .inr (hm.congr rfl rfl rfl rfl)⟩

theorem HoldsMessage.absorbed_of_open {s : State} (h : HoldsMessage s) (hf : s.finalized = false) :
    ∃ m, Absorbed s m := by
  obtain ⟨m, hm | hm⟩ := h
  · exact ⟨m, hm⟩
  · exact absurd (hf.symm.trans hm.closed) Bool.false_ne_true

theorem platformReset_absorbed (s : State) : Absorbed s.platformReset [] :=
  ⟨rfl, by simp, rfl, rfl, rfl, fun _ hj => absurd hj (Nat.not_lt_zero _)⟩

theorem exec_holdsMessage {i : Instr} {s t : State} (hs : HoldsMessage s) (h : exec i s = .next t) :
    HoldsMessage t := by
  rcases exec_cases h with ⟨-, rfl⟩ | ⟨-, code, rfl, -⟩ | ⟨-, hf, hl, habs⟩ | ⟨-, hf, -, rfl⟩
  · exact ⟨[], .inl (initContext_absorbed s)⟩
  · exact hs.reject code
  · obtain ⟨m, hm⟩ := hs.absorbed_of_open hf
    have hbits : bitsWith s _ < 2 ^ 64 := of_decide_eq_true hl
    have hlen := hm.lengths
    rw [bitsWith] at hbits
    exact ⟨_, .inl (absorbAll_absorbed _ hm (by omega) habs)⟩
  · obtain ⟨m, hm⟩ := hs.absorbed_of_open hf
    exact ⟨m, .inr hm.finalize_digested⟩

/-- Settles O42: INIT and reset leave the empty message, an UPDATE a longer one, FINALIZE the digest; all else keeps
what is held. -/
theorem stepKeepsConsistency : Obligations.StepKeepsConsistency := by
  intro s t hs h
  refine ⟨stepKeepsInvariants s t hs.inv h, ?_⟩
  exact step_keeps HoldsMessage.sameUnit (fun s => ⟨[], .inl (platformReset_absorbed s)⟩)
    (fun _ hs => hs.reject _) exec_holdsMessage hs.message hs.inv.idle h

/-! ## Results depend on the context alone -/

section
variable {s s' : State} (h : SameContext s s')
include h

theorem SameContext.bitsWith_eq (n : Nat) : bitsWith s' n = bitsWith s n := by
  rw [bitsWith, bitsWith, h.bitLen, h.blockLen]

theorem SameContext.messageBits_eq : s'.messageBits = s.messageBits := by
  rw [State.messageBits, State.messageBits, h.bitLen, h.blockLen]

theorem SameContext.markedByte_eq : s'.markedByte = s.markedByte := by
  funext a
  rw [State.markedByte, State.markedByte, h.blockLen]
  split
  · exact h.buffered a ‹_›
  · rfl

theorem SameContext.reject (code : ErrCode) : SameContext (s.reject code) (s'.reject code) :=
  ⟨h.h, h.blockLen, h.bitLen, h.finalized, rfl, rfl, h.din, h.buffered⟩

theorem SameContext.initContext : SameContext s.initContext s'.initContext :=
  ⟨rfl, rfl, rfl, rfl, rfl, rfl, h.din, fun _ hj => absurd hj (Nat.not_lt_zero _)⟩

/-- Up to the appended byte `Buf` reads alike. -/
theorem SameContext.readBuf_appendByte (x : Byte) {j : Nat} (hj : j ≤ s.blockLen.toNat) :
    (s'.appendByte x).readBuf j = (s.appendByte x).readBuf j := by
  rw [State.readBuf_appendByte, State.readBuf_appendByte, h.blockLen]
  split
  · rfl
  · exact h.buffered j (by omega)

theorem absorb_sameContext {x : Byte} {t : State} (ht : absorb x s = .next t) :
    ∃ t', absorb x s' = .next t' ∧ SameContext t t' := by
  obtain ⟨hl, rfl⟩ := absorb_eq_next.1 ht
  refine ⟨(s'.appendByte x).closeIfFull, absorb_eq_next.2 ⟨h.blockLen.symm ▸ hl, rfl⟩, ?_⟩
  by_cases hfull : s.blockLen.toNat = 63
  · have hblock : (s'.appendByte x).block = (s.appendByte x).block :=
      State.block_eq_map fun a ha => h.readBuf_appendByte x (by omega)
    rw [State.appendByte_full x hfull, State.appendByte_full x (h.blockLen.symm ▸ hfull)]
    exact
      { h := by
          simp only [State.countBlock_h, State.compressBuf_h, State.appendByte_h]
          rw [hblock, h.h]
        blockLen := rfl
        bitLen := congrArg (· + 512) h.bitLen
        finalized := h.finalized
        err := h.err
        errCode := h.errCode
        din := h.din
        buffered := fun j hj => absurd hj (Nat.not_lt_zero _) }
  · rw [State.appendByte_not_full x (by omega), State.appendByte_not_full x (by rw [h.blockLen]; omega)]
    exact
      { h := h.h
        blockLen := congrArg (· + 1) h.blockLen
        bitLen := h.bitLen
        finalized := h.finalized
        err := h.err
        errCode := h.errCode
        din := h.din
        buffered := fun j hj => h.readBuf_appendByte x (by rw [State.appendByte_blockLen_toNat s x hl] at hj; omega) }

end

theorem absorbAll_sameContext (xs : List Byte) {s s' t : State} (h : SameContext s s')
    (ht : absorbAll xs s = .next t) : ∃ t', absorbAll xs s' = .next t' ∧ SameContext t t' := by
  induction xs generalizing s s' with
  | nil => cases ht; exact ⟨s', rfl, h⟩
  | cons x xs ih =>
    obtain ⟨u, hu, ht⟩ := absorbAll_cons_eq_next.1 ht
    obtain ⟨u', hu', hsame⟩ := absorb_sameContext h hu
    obtain ⟨t', ht', hsame'⟩ := ih hsame ht
    exact ⟨t', absorbAll_cons_eq_next.2 ⟨u', hu', ht'⟩, hsame'⟩

section
variable {s s' : State} (h : SameContext s s')
include h

theorem update_sameContext {xs : List Byte} {t : State} (ht : update xs s = .next t) :
    ∃ t', update xs s' = .next t' ∧ SameContext t t' := by
  have hok : lengthOK s' xs.length = lengthOK s xs.length := by rw [lengthOK, lengthOK, h.bitsWith_eq]
  simp only [update_eq_next, h.finalized, hok]
  rcases update_eq_next.1 ht with ⟨hf, rfl⟩ | ⟨hf, hl, rfl⟩ | ⟨hf, hl, habs⟩
  · exact ⟨_, .inl ⟨hf, rfl⟩, h.reject _⟩
  · exact ⟨_, .inr (.inl ⟨hf, hl, rfl⟩), h.reject _⟩
  · obtain ⟨t', ht', hsame⟩ := absorbAll_sameContext xs h habs
    exact ⟨t', .inr (.inr ⟨hf, hl, ht'⟩), hsame⟩

/-- The blocks that FINALIZE compresses are fixed by the context. -/
theorem SameContext.finalize_h (hb : s.blockLen.toNat < 64) :
    s'.pad.writeLength.compressBuf.seal.h = s.pad.writeLength.compressBuf.seal.h := by
  have hb' : s'.blockLen.toNat = s.blockLen.toNat := congrArg _ h.blockLen
  by_cases hroom : s.blockLen.toNat < 56
  · rw [State.finalize_h_room hroom, State.finalize_h_room (by omega), h.h, h.markedByte_eq, h.messageBits_eq]
  · rw [State.finalize_h_noRoom (by omega) hb, State.finalize_h_noRoom (by omega) (by omega), h.h, h.markedByte_eq,
      h.messageBits_eq]

theorem SameContext.finalize (hb : s.blockLen.toNat < 64) :
    SameContext s.pad.writeLength.compressBuf.seal s'.pad.writeLength.compressBuf.seal := by
  obtain ⟨herrs, hside⟩ := s.finalize_frame
  obtain ⟨herrs', hside'⟩ := s'.finalize_frame
  exact
    { h := h.finalize_h hb
      blockLen := rfl
      bitLen := by rw [State.finalize_bitLen, State.finalize_bitLen, h.messageBits_eq]
      finalized := rfl
      err := by rw [herrs.err, herrs'.err, h.err]
      errCode := by rw [herrs.errCode, herrs'.errCode, h.errCode]
      din := by rw [hside.din, hside'.din, h.din]
      buffered := fun j hj => absurd hj (Nat.not_lt_zero _) }

theorem exec_sameContext {i : Instr} {t : State} (ht : exec i s = .next t) :
    ∃ t', exec i s' = .next t' ∧ SameContext t t' := by
  cases i with
  | init => cases ht; exact ⟨_, rfl, h.initContext⟩
  | updateByte b => exact update_sameContext h ht
  | updateDin n =>
    simp only [exec, execUpdateDin, h.din] at ht ⊢
    split_ifs at ht ⊢
    · cases ht; exact ⟨_, rfl, h.reject _⟩
    · exact update_sameContext h ht
  | finalize =>
    simp only [exec, execFinalize_eq_next, h.finalized, h.blockLen] at ht ⊢
    rcases ht with ⟨hf, rfl⟩ | ⟨hf, hb, rfl⟩
    · exact ⟨_, .inl ⟨hf, rfl⟩, h.reject _⟩
    · exact ⟨_, .inr ⟨hf, hb, rfl⟩, h.finalize hb⟩

end

/-- Settles O46: with `block_len` at most 63 the command completes from the one state, and so from the other alike. -/
theorem resultsIgnoreUnspecifiedBytes : Obligations.ResultsIgnoreUnspecifiedBytes := by
  intro s s' i hs _ h
  obtain ⟨t, ht⟩ := exec_completes i hs.blockLen_le
  obtain ⟨t', ht', hsame⟩ := exec_sameContext h ht
  exact ⟨t, t', ht, ht', hsame⟩

/-! ## Steps and commands -/

/-- Settles O9: of the moves served only reset and the write of DIN reach it. -/
theorem onlyDinWriteOrResetChangesDin : Obligations.OnlyDinWriteOrResetChangesDin := by
  intro s t hidle hstep
  rcases step_cases hidle hstep with ⟨-, rfl⟩ | ⟨m, rest, hhost, hm⟩
  · exact .inl rfl
  rcases serve_cases hm with ⟨rfl, rfl⟩ | rfl | ⟨v, rfl⟩ | ⟨w, u, -, hu, rfl⟩ | ⟨v, rfl, rfl⟩ | rfl
  · exact .inr (.inr ⟨rest, hhost, rfl⟩)
  · exact .inl rfl
  · exact .inl rfl
  · exact .inl (executeWord_keepsHostSide hu).din
  · exact .inr (.inl ⟨v, rest, hhost, rfl⟩)
  · exact .inl rfl

/-- A CMD write executes its word. -/
theorem serve_cmd (w : Word) (s : State) : serve (.write 0x00 4 w) s = answerOk (executeWord w s) := rfl

/-- Settles O4: the step serves the CMD write, which executes the decoded word. -/
theorem stepRunsDecodedCommand : Obligations.StepRunsDecodedCommand := by
  intro s w i rest hidle hhost hdec
  have hstep : step s = answerOk (exec i { s with host := rest }) := by
    rw [step_idle hidle, serveNext, hhost, ← executeWord_ok _ hdec]
    exact serve_cmd w _
  exact ⟨hstep, fun t ht => by rw [hstep, ht]; rfl⟩

theorem update_finalized {xs : List Byte} {s t : State} (h : update xs s = .next t) : t.finalized = s.finalized := by
  rcases update_eq_next.1 h with ⟨-, rfl⟩ | ⟨-, -, rfl⟩ | ⟨-, -, habs⟩
  · rfl
  · rfl
  · exact (absorbAll_frame _ habs).1

theorem execFinalize_finalized {s t : State} (h : execFinalize s = .next t) : t.finalized = true := by
  rcases execFinalize_eq_next.1 h with ⟨hf, rfl⟩ | ⟨-, -, rfl⟩
  · exact hf
  · rfl

theorem execUpdateDin_illegal {n : BitVec 3} (s : State) (hn : 4 < n.toNat) :
    execUpdateDin n s = .next (s.reject .illegalCmd) := if_pos hn

/-- Settles O20: by command; a FINALIZE that is rejected finds FINALIZED at 1. -/
theorem commandSetsFinalized : Obligations.CommandSetsFinalized := by
  intro i s t h
  have hside := exec_keepsHostSide h
  cases i with
  | init => cases h; exact ⟨fun _ => rfl, nofun, fun hi => absurd rfl hi, hside⟩
  | updateByte b => exact ⟨nofun, nofun, fun _ _ => update_finalized h, hside⟩
  | updateDin n =>
    refine ⟨nofun, nofun, fun _ _ => ?_, hside⟩
    by_cases hn : 4 < n.toNat
    · cases (execUpdateDin_illegal s hn).symm.trans h
      rfl
    · exact update_finalized ((execUpdateDin_ok s (by omega)).symm.trans h)
  | finalize => exact ⟨nofun, fun _ => execFinalize_finalized h, fun _ hi => absurd rfl hi, hside⟩

/-- Settles O21: past its checks the command meets the bound of `Buf`; a count above 4 never gets so far. -/
theorem outOfRangeOperandsStopOrAreRejected : Obligations.OutOfRangeOperandsStopOrAreRejected := by
  refine ⟨fun s b hb hf hl => ?_, fun s hb hf => ?_, fun s n hn => ⟨_, execUpdateDin_illegal s hn, rfl⟩⟩
  · refine (update_ok (xs := [b]) hf hl).trans ?_
    rw [absorbAll, absorb_fault hb]
  · have hnot : ¬ s.blockLen.toNat < 64 := by omega
    simp [exec, execFinalize, hf, hnot]

/-! ## The register window -/

theorem target_outside {off : Nat} (n : Nat) (h : 64 ≤ off) : target off n = .outside := if_pos h

/-- Inside the window an aligned 32-bit access reaches its register (R51, R52). -/
theorem target_reg {off : Nat} (hoff : off < 64) (ha : off % 4 = 0) : target off 4 = .reg (regAt off) := by
  unfold target
  rw [if_neg (by omega), if_neg (by omega)]

/-- Every aligned offset is that of its register (R30). -/
theorem regOffset_regAt {off : Nat} (hoff : off < 64) (ha : off % 4 = 0) : regOffset (regAt off) = off := by
  have hall : ∀ k : Fin 16, regOffset (regAt (4 * k.val)) = 4 * k.val := by decide
  have hk : 4 * (off / 4) = off := by omega
  simpa only [hk] using hall ⟨off / 4, by omega⟩

theorem serve_read_outside {off : Nat} (n : Nat) (s : State) (h : 64 ≤ off) :
    serve (.read off n) s = .refused .outsideWindow := by
  simp only [serve, target_outside n h]

theorem serve_write_outside {off : Nat} (n : Nat) (v : Word) (s : State) (h : 64 ≤ off) :
    serve (.write off n v) s = .refused .outsideWindow := by
  simp only [serve, target_outside n h]

theorem serve_read_reg {off : Nat} (s : State) (hoff : off < 64) (ha : off % 4 = 0) :
    serve (.read off 4) s = .next (s.respond (.data (readReg s (regAt off)))) := by
  simp only [serve, target_reg hoff ha]

theorem State.respond_injective (s : State) {r r' : Response} (h : s.respond r = s.respond r') : r = r' := by
  have hresp : s.responses ++ [r] = s.responses ++ [r'] := congrArg State.responses h
  simpa using hresp

/-- A read is answered with `v` exactly at an aligned offset of the window whose register holds `v`. -/
theorem serve_read_eq_data (s : State) (off : Nat) (v : Word) :
    serve (.read off 4) s = .next (s.respond (.data v)) ↔
      off < 64 ∧ off % 4 = 0 ∧ v = readReg s (regAt off) := by
  constructor
  · intro h
    by_cases hoff : off < 64
    · by_cases ha : off % 4 = 0
      · rw [serve_read_reg s hoff ha] at h
        cases s.respond_injective (Host.Outcome.next.inj h)
        exact ⟨hoff, ha, rfl⟩
      · have hbus := serve_busError (m := .read off 4) s (decide_eq_true (target_busError hoff (.inr ha)))
        have hresp : s.responses ++ [.busError] = s.responses ++ [.data v] :=
          congrArg State.responses (Host.Outcome.next.inj (hbus.symm.trans h))
        simp at hresp
    · rw [serve_read_outside 4 s (by omega)] at h
      cases h
  · rintro ⟨hoff, ha, rfl⟩
    exact serve_read_reg s hoff ha

/-- STATUS is `{ERRCODE, 0b00, ERR, FINALIZED}` as a number (R33). -/
theorem statusWord_toNat (s : State) :
    (statusWord s).toNat = 16 * s.errCode.toNat + 2 * s.err.toNat + s.finalized.toNat := by
  have hall : ∀ (c : BitVec 4) (e f : Bool),
      (0#24 ++ c ++ 0#2 ++ BitVec.ofBool e ++ BitVec.ofBool f : BitVec 32).toNat =
        16 * c.toNat + 2 * e.toNat + f.toNat := by decide
  exact hall s.errCode s.err s.finalized

theorem readReg_blockLen_toNat (s : State) : (readReg s .blockLen).toNat = s.blockLen.toNat % 64 := by
  simp only [readReg, BitVec.toNat_setWidth, BitVec.extractLsb'_toNat, Nat.shiftRight_zero]
  omega

theorem readReg_bitLenLo_toNat (s : State) : (readReg s .bitLenLo).toNat = s.bitLen.toNat % 2 ^ 32 := by
  simp only [readReg, BitVec.extractLsb'_toNat, Nat.shiftRight_zero]

theorem readReg_bitLenHi_toNat (s : State) : (readReg s .bitLenHi).toNat = s.bitLen.toNat / 2 ^ 32 := by
  simp only [readReg, BitVec.extractLsb'_toNat, Nat.shiftRight_eq_div_pow]
  omega

/-- Settles O33: the answered reads are those of `serve_read_eq_data`; the map and the values are the window's. -/
theorem registerReadsReturnTheirValue : Obligations.RegisterReadsReturnTheirValue := by
  intro s
  exact ⟨serve_read_eq_data s, rfl, rfl, rfl, rfl, rfl, rfl, rfl, rfl, by decide, rfl, rfl, statusWord_toNat s,
    readReg_blockLen_toNat s, readReg_bitLenLo_toNat s, readReg_bitLenHi_toNat s,
    rfl, rfl, rfl, rfl, rfl, rfl, rfl, rfl, rfl, rfl⟩

/-- Every register but CMD takes a write without effect, or is DIN (R32, R38, R39). -/
theorem writeReg_of_ne_cmd {r : Reg} (hr : r ≠ .cmd) (v : Word) (s : State) :
    writeReg r v s = .next { s with din := if r = .din then v else s.din } := by
  cases r with
  | cmd => exact absurd rfl hr
  | _ => rfl

/-- Settles O34: at an offset other than 0x00 stands another register than CMD, and DIN stands at 0x04 alone. -/
theorem registerWrites : Obligations.RegisterWrites := by
  intro s off v hoff ha hne
  have hback := regOffset_regAt hoff ha
  have hcmd : regAt off ≠ .cmd := fun hr => hne (by rw [← hback, hr]; rfl)
  have hdin : regAt off = .din ↔ off = 0x04 :=
    ⟨fun hr => by rw [← hback, hr]; rfl, fun hoff => by rw [hoff]; rfl⟩
  simp only [serve, target_reg hoff ha, writeReg_of_ne_cmd hcmd, hdin]
  rfl

/-- Settles O36: the window is `BASE` to `BASE + 0x3F`, and beyond it the target is outside whatever the width. -/
theorem windowSelection : Obligations.WindowSelection := by
  refine ⟨fun addr off => ?_, fun s off n v h => ⟨serve_read_outside n s h, serve_write_outside n v s h⟩⟩
  unfold windowOffset
  split
  · rw [Option.some.injEq]
    omega
  · simp only [reduceCtorEq, false_iff]
    omega

/-- Settles O37: ERR is 1 exactly with a code of 1 to 3, and FINALIZED is 1 with code 2. -/
theorem statusReadsReachableValue : Obligations.StatusReadsReachableValue := by
  intro s hs
  have hok : s.errCode.toNat = 0 → s.err.toNat = 0 := fun h => by
    rw [hs.err_iff.2 (BitVec.eq_of_toNat_eq h), Bool.toNat_false]
  have hrejected : s.errCode.toNat ≠ 0 → s.err.toNat = 1 := fun h => by
    have herr : s.err = true := Bool.eq_true_of_not_eq_false fun he => h (by rw [hs.err_iff.1 he]; rfl)
    rw [herr, Bool.toNat_true]
  have hmisuse : s.errCode.toNat = 2 → s.finalized.toNat = 1 := fun h => by
    rw [hs.misuse_final (BitVec.eq_of_toNat_eq h), Bool.toNat_true]
  have hfinalized := s.finalized.toNat_le
  have hcode := hs.errCode_le
  rw [readReg, statusWord_toNat]
  simp only [List.mem_cons, List.not_mem_nil, or_false]
  omega

/-! ## Reset -/

/-- Settles O38: both write the IV and zeros, and neither touches the host's side or the model's record. -/
theorem resetEqualsInitWithDinZero : Obligations.ResetEqualsInitWithDinZero := fun s =>
  ⟨s.platformReset, s.initContext, rfl, rfl, rfl, rfl, rfl, rfl, rfl, rfl, rfl, rfl, rfl, rfl, rfl⟩

theorem reset_absorbed : Absorbed State.reset [] :=
  ⟨rfl, by simp, rfl, rfl, rfl, fun _ hj => absurd hj (Nat.not_lt_zero _)⟩

/-- Settles O39: after power-up the context is fresh, and `Buf` lists no byte. -/
theorem resetIsConsistent : Obligations.ResetIsConsistent :=
  ⟨⟨inv_of_fresh rfl rfl rfl rfl rfl rfl rfl, [], .inl reset_absorbed⟩, reset_absorbed, rfl,
    onlyBlockHeld_of_empty rfl rfl⟩

end Sys2Proof.Machine

/-! PROOFS. The statement of the family 20_memory.md: from the states that meet the invariants only an access outside the
window stops a step (R51, R66, R209). -/

namespace Sys2Proof.Machine

/-- Only an offset past the window selects nothing (R51). -/
theorem le_of_target_outside {off n : Nat} (h : target off n = .outside) : 64 ≤ off := by
  by_contra hoff
  unfold target at h
  rw [if_neg hoff] at h
  split at h <;> cases h

/-- A register write completes, since the one that executes a command does. -/
theorem writeReg_completes {s : State} (r : Reg) (v : Word) (hb : s.blockLen.toNat ≤ 63) :
    ∃ t, writeReg r v s = .next t := by
  by_cases hr : r = .cmd
  · rw [hr]
    exact executeWord_completes v hb
  · exact ⟨_, writeReg_of_ne_cmd hr v s⟩

/-- A move is served unless it is an access outside the window. -/
theorem serve_completes_or_outside {s : State} (m : HostMove) (hb : s.blockLen.toNat ≤ 63) :
    (∃ t, serve m s = .next t) ∨
      ∃ off n, 64 ≤ off ∧ (m = .read off n ∨ ∃ v, m = .write off n v) := by
  cases m with
  | reset => exact .inl ⟨_, rfl⟩
  | read off n =>
    cases ht : target off n with
    | outside => exact .inr ⟨off, n, le_of_target_outside ht, .inl rfl⟩
    | busError => exact .inl ⟨_, serve_busError s (decide_eq_true ht)⟩
    | reg r => exact .inl ⟨s.respond (.data (readReg s r)), by simp only [serve, ht]⟩
  | write off n v =>
    cases ht : target off n with
    | outside => exact .inr ⟨off, n, le_of_target_outside ht, .inr ⟨v, rfl⟩⟩
    | busError => exact .inl ⟨_, serve_busError s (decide_eq_true ht)⟩
    | reg r =>
      obtain ⟨t, hw⟩ := writeReg_completes r v hb
      exact .inl ⟨t.respond .ok, by simp only [serve, ht]; exact answerOk_eq_next.2 ⟨t, hw, rfl⟩⟩

/-- Settles O10: the step serves the next move, if there is one, at a `block_len` that lets every command complete. -/
theorem stepNeverFaultsUnderInvariant : Obligations.StepNeverFaultsUnderInvariant := by
  intro s hs
  rw [step_idle hs.idle]
  cases hhost : s.host with
  | nil => exact .inl ⟨s, by simp only [serveNext, hhost]⟩
  | cons m rest =>
    have hserve : serveNext s = serve m { s with host := rest } := by simp only [serveNext, hhost]
    rw [hserve]
    rcases serve_completes_or_outside (s := { s with host := rest }) m hs.blockLen_le with
      ⟨t, ht⟩ | ⟨off, n, hoff, rfl | ⟨v, rfl⟩⟩
    · exact .inl ⟨t, ht⟩
    · exact .inr ⟨serve_read_outside n _ hoff, off, n, rest, hoff, .inl rfl⟩
    · exact .inr ⟨serve_write_outside n v _ hoff, off, n, rest, hoff, .inr ⟨v, rfl⟩⟩

end Sys2Proof.Machine

/-! PROOFS. The statements of the family 30_encoding.md: which words decode to which command (R70 to R76), what an
illegal word does (R74), what UPDATE_DIN absorbs (R103), and the runs of the pseudo-instructions FEED, FEEDW and HASH
(R77, R78). -/

namespace Sys2Proof.Machine

open Host (Outcome)

/-! ## A word and its fields -/

/-- The three fields of a word are its parts (R70). -/
theorem append_fields_eq_iff {op : BitVec 8} {rsv : BitVec 16} {opd : BitVec 8} {w : Word} :
    op ++ rsv ++ opd = w ↔ fieldOP w = op ∧ fieldRSV w = rsv ∧ fieldOPD w = opd := by
  constructor
  · rintro rfl
    have hop : fieldOP (op ++ rsv ++ opd) = BitVec.extractLsb' 16 8 (op ++ rsv) :=
      BitVec.extractLsb'_append_eq_of_le (by decide)
    have hrsv : fieldRSV (op ++ rsv ++ opd) = BitVec.extractLsb' 0 16 (op ++ rsv) :=
      BitVec.extractLsb'_append_eq_of_le (by decide)
    exact ⟨hop.trans BitVec.extractLsb'_append_eq_left, hrsv.trans BitVec.extractLsb'_append_eq_right,
      BitVec.extractLsb'_append_eq_right⟩
  · rintro ⟨rfl, rfl, rfl⟩
    have hupper : fieldOP w ++ fieldRSV w = w.extractLsb' 8 24 :=
      BitVec.extractLsb'_append_extractLsb'_eq_extractLsb' rfl
    rw [hupper]
    exact BitVec.extractLsb'_append_extractLsb'

/-- UPDATE_DIN's two fields are the parts of OPD (R73). -/
theorem fieldOPD_eq_append_iff {high : BitVec 5} {n : BitVec 3} {w : Word} :
    fieldOPD w = high ++ n ↔ fieldOPDHigh w = high ∧ fieldN w = n := by
  have hparts : fieldOPDHigh w ++ fieldN w = fieldOPD w := BitVec.extractLsb'_append_extractLsb'_eq_extractLsb' rfl
  rw [← hparts]
  constructor
  · intro h
    have hhigh := congrArg (BitVec.extractLsb' 3 5) h
    have hn := congrArg (BitVec.extractLsb' 0 3) h
    rw [BitVec.extractLsb'_append_eq_left, BitVec.extractLsb'_append_eq_left] at hhigh
    rw [BitVec.extractLsb'_append_eq_right, BitVec.extractLsb'_append_eq_right] at hn
    exact ⟨hhigh, hn⟩
  · rintro ⟨rfl, rfl⟩
    rfl

/-- The OP field of a command's word (R72). -/
def opOf : Instr → BitVec 8
  | .init => 0x01
  | .updateByte _ => 0x02
  | .updateDin _ => 0x03
  | .finalize => 0x04

/-- The OPD field of a command's word (R72, R73). -/
def opdOf : Instr → BitVec 8
  | .init => 0
  | .updateByte b => b
  | .updateDin n => 0#5 ++ n
  | .finalize => 0

theorem encode_eq_append (i : Instr) : encode i = opOf i ++ 0#16 ++ opdOf i := by
  cases i with
  | init => rfl
  | updateByte b => rfl
  | updateDin n => exact BitVec.append_assoc
  | finalize => rfl

/-- A word that decodes to a command has its fields (R72, R76). -/
theorem fields_of_decode {w : Word} {i : Instr} (h : decode w = .ok i) :
    i.wellFormed = true ∧ fieldOP w = opOf i ∧ fieldRSV w = 0#16 ∧ fieldOPD w = opdOf i := by
  unfold decode at h
  split_ifs at h with hrsv hop hopd hop hop hhigh hcount hop hopd
  · cases h
    exact ⟨rfl, hop, not_not.1 hrsv, not_not.1 hopd⟩
  · cases h
    exact ⟨rfl, hop, not_not.1 hrsv, rfl⟩
  · cases h
    exact ⟨decide_eq_true (Nat.not_lt.1 hcount), hop, not_not.1 hrsv,
      fieldOPD_eq_append_iff.2 ⟨not_not.1 hhigh, rfl⟩⟩
  · cases h
    exact ⟨rfl, hop, not_not.1 hrsv, not_not.1 hopd⟩

/-- A word with the fields of a well-formed command decodes to it (R72, R76). -/
theorem decode_of_fields {w : Word} {i : Instr} (hi : i.wellFormed = true) (hop : fieldOP w = opOf i)
    (hrsv : fieldRSV w = 0#16) (hopd : fieldOPD w = opdOf i) : decode w = .ok i := by
  cases i with
  | init => simp [decode, hrsv, hop, hopd, opOf, opdOf]
  | updateByte b => simp [decode, hrsv, hop, hopd, opOf, opdOf]
  | updateDin n =>
    obtain ⟨hhigh, hn⟩ := fieldOPD_eq_append_iff.1 hopd
    have hcount : n.toNat ≤ 4 := of_decide_eq_true hi
    simp [decode, hrsv, hop, hhigh, hn, opOf, hcount]
  | finalize => simp [decode, hrsv, hop, hopd, opOf, opdOf]

/-- Settles O2: a word decodes by its three fields, and these are the parts that the encoder joins. -/
theorem decodeInvertsEncode : Obligations.DecodeInvertsEncode := by
  intro w i
  rw [encode_eq_append, append_fields_eq_iff]
  exact ⟨fields_of_decode, fun ⟨hi, hop, hrsv, hopd⟩ => decode_of_fields hi hop hrsv hopd⟩

theorem decode_encode {i : Instr} (hi : i.wellFormed = true) : decode (encode i) = .ok i :=
  (decodeInvertsEncode _ _).2 ⟨hi, rfl⟩

/-! ## Illegal words -/

/-- OP as a number (R70). -/
theorem fieldOP_eq_iff {w : Word} {op : BitVec 8} : fieldOP w = op ↔ w.toNat / 2 ^ 24 = op.toNat := by
  have hlt := w.isLt
  have hop : (fieldOP w).toNat = w.toNat / 2 ^ 24 := by
    rw [fieldOP, BitVec.extractLsb'_toNat, Nat.shiftRight_eq_div_pow]
    omega
  rw [← BitVec.toNat_inj, hop]

theorem fieldN_toNat (w : Word) : (fieldN w).toNat = w.toNat % 8 := BitVec.extractLsb'_toNat 0 3 w

/-- A word decodes to some command exactly when it has the form of a row of R72. -/
theorem exists_decode_eq_ok_iff {w : Word} :
    (∃ i, decode w = .ok i) ↔ fieldRSV w = 0#16 ∧
      ((fieldOP w = 0x01 ∨ fieldOP w = 0x04) ∧ fieldOPD w = 0 ∨ fieldOP w = 0x02 ∨
        fieldOP w = 0x03 ∧ fieldOPDHigh w = 0 ∧ (fieldN w).toNat ≤ 4) := by
  constructor
  · rintro ⟨i, hi⟩
    obtain ⟨hwf, hop, hrsv, hopd⟩ := fields_of_decode hi
    cases i with
    | init => exact ⟨hrsv, .inl ⟨.inl hop, hopd⟩⟩
    | updateByte b => exact ⟨hrsv, .inr (.inl hop)⟩
    | updateDin n =>
      obtain ⟨hhigh, rfl⟩ := fieldOPD_eq_append_iff.1 hopd
      exact ⟨hrsv, .inr (.inr ⟨hop, hhigh, of_decide_eq_true hwf⟩)⟩
    | finalize => exact ⟨hrsv, .inl ⟨.inr hop, hopd⟩⟩
  · rintro ⟨hrsv, ⟨hop | hop, hopd⟩ | hop | ⟨hop, hhigh, hcount⟩⟩
    · exact ⟨.init, decode_of_fields rfl hop hrsv hopd⟩
    · exact ⟨.finalize, decode_of_fields rfl hop hrsv hopd⟩
    · exact ⟨.updateByte (fieldOPD w), decode_of_fields rfl hop hrsv rfl⟩
    · exact ⟨.updateDin (fieldN w), decode_of_fields (decide_eq_true hcount) hop hrsv
        (fieldOPD_eq_append_iff.2 ⟨hhigh, rfl⟩)⟩

theorem exists_decode_eq_error_iff {w : Word} : (∃ e, decode w = .error e) ↔ ¬ ∃ i, decode w = .ok i := by
  cases decode w <;> simp

/-- Settles O3: the five cases are all that the forms of R72 leave out. -/
theorem illegalWordsAreRejected : Obligations.IllegalWordsAreRejected := by
  refine ⟨fun w => ?_, fun w e s he => ⟨_, executeWord_error s he, rfl⟩, ⟨.unknownOp, rfl⟩, ⟨.reservedBits, rfl⟩⟩
  rw [exists_decode_eq_error_iff, exists_decode_eq_ok_iff]
  simp only [fieldOP_eq_iff, fieldN_toNat, fieldRSV, fieldOPD, fieldOPDHigh]
  grind

/-- Settles O1: each word is read by evaluation. -/
theorem commandWordsDecode : Obligations.CommandWordsDecode := by
  unfold Obligations.CommandWordsDecode
  decide

/-- Settles O5: the step serves the CMD write, whose word is rejected. -/
theorem stepRejectsIllegalWord : Obligations.StepRejectsIllegalWord := by
  intro s w e rest hidle hhost he
  rw [step_idle hidle, serveNext, hhost]
  refine (serve_cmd w _).trans ?_
  rw [executeWord_error _ he]
  rfl

/-! ## UPDATE_DIN -/

/-- Bytes that fill the block and go on into the next: the full block is compressed once and counted, and the bytes left
over stand from `Buf[0]` on. -/
theorem absorbAll_wrap (xs : List Byte) (s : State) (hb : s.blockLen.toNat ≤ 63)
    (hfull : 64 ≤ s.blockLen.toNat + xs.length) (honce : s.blockLen.toNat + xs.length < 128) :
    ∃ t, absorbAll xs s = .next t ∧ t.blockLen.toNat = s.blockLen.toNat + xs.length - 64 ∧
      t.bitLen = s.bitLen + 512 ∧
      t.h = compress s.h ((List.range 64).map fun a =>
        if s.blockLen.toNat ≤ a then xs.getD (a - s.blockLen.toNat) 0 else s.readBuf a) ∧
      ∀ a, a < s.blockLen.toNat + xs.length - 64 → t.readBuf a = xs.getD (a + 64 - s.blockLen.toNat) 0 := by
  obtain ⟨ys, zs, rfl, hys⟩ : ∃ ys zs, xs = ys ++ zs ∧ s.blockLen.toNat + ys.length = 64 :=
    ⟨xs.take (64 - s.blockLen.toNat), xs.drop (64 - s.blockLen.toNat), (List.take_append_drop _ _).symm,
      by rw [List.length_take]; omega⟩
  rw [List.length_append] at hfull honce ⊢
  obtain ⟨u, hu, hulen, hubits, -, huh, -⟩ := absorbAll_fill ys s (by omega) hys
  have hzero : u.blockLen.toNat = 0 := by rw [hulen]; rfl
  obtain ⟨t, ht, htlen, hth, htbits, -, htread⟩ := absorbAll_room zs u (by omega)
  refine ⟨t, (absorbAll_append_next hu).trans ht, by omega, htbits.trans hubits, ?_, fun a ha => ?_⟩
  · rw [hth, huh]
    refine congrArg (compress s.h) (List.map_congr_left fun a ha => ?_)
    rw [List.mem_range] at ha
    split
    · rw [List.getD_append _ _ _ _ (by omega)]
    · rfl
  · rw [htread, hzero, if_pos (by omega), List.getD_append_right _ _ _ _ (by omega)]
    congr 1
    omega

/-- Byte `j` of those that UPDATE_DIN absorbs (R103). -/
theorem dinBytes_getD (din : Word) {n : BitVec 3} (hn : n.toNat ≤ 4) {j : Nat} (hj : j < n.toNat) :
    (dinBytes din n).getD j 0 = din.extractLsb' (24 - 8 * j) 8 := by
  have htake : (dinBytes din n).getD j 0 = (be32inv din).getD j 0 := by
    simp only [dinBytes, List.getD_eq_getElem?_getD, List.getElem?_take_of_lt hj]
  have hj4 : j < 4 := by omega
  rw [htake]
  interval_cases j <;> rfl

/-- Settles O14: the bytes go behind those of the block while there is room, and otherwise fill it and wrap. -/
theorem updateDinAbsorbsItsBytes : Obligations.UpdateDinAbsorbsItsBytes := by
  intro s n hn hb hf hl
  have hlen := dinBytes_length s.din hn
  have hexec : exec (.updateDin n) s = absorbAll (dinBytes s.din n) s :=
    exec_update (i := .updateDin n) (decide_eq_true hn) hf (by rw [absorbedBytes, hlen]; exact hl)
  rw [hexec]
  by_cases hroom : s.blockLen.toNat + n.toNat < 64
  · obtain ⟨t, ht, htlen, hth, htbits, hint, hread⟩ := absorbAll_room (dinBytes s.din n) s (by omega)
    obtain ⟨hfin, herrs, hside⟩ := absorbAll_frame _ ht
    rw [hlen] at htlen hread
    refine ⟨t, ht, fun _ => ⟨fun j hj => ?_, fun a ha => ?_, htlen, hth, htbits, hint⟩, fun h => by omega,
      hfin.trans hf, herrs, hside⟩
    · rw [hread, if_pos (by omega), Nat.add_sub_cancel_left, dinBytes_getD s.din hn hj]
    · rw [hread, if_neg fun hin => ha (a - s.blockLen.toNat) (by omega) (by omega)]
  · obtain ⟨t, ht, htlen, htbits, hth, hread⟩ := absorbAll_wrap (dinBytes s.din n) s hb (by omega) (by omega)
    obtain ⟨hfin, herrs, hside⟩ := absorbAll_frame _ ht
    rw [hlen] at htlen hread
    refine ⟨t, ht, fun h => by omega, fun _ => ⟨fun j hj hwrap => ?_, htlen, ?_, ?_⟩, hfin.trans hf, herrs, hside⟩
    · rw [hread _ (by omega), show s.blockLen.toNat + j - 64 + 64 - s.blockLen.toNat = j by omega,
        dinBytes_getD s.din hn hj]
    · rw [htbits, BitVec.toNat_add, show BitVec.toNat (512 : BitVec 64) = 512 from rfl]
      omega
    · rw [hth]
      refine congrArg (compress s.h) (List.map_congr_left fun a ha => ?_)
      rw [List.mem_range] at ha
      split
      · rw [dinBytes_getD s.din hn (by omega)]
      · rfl

/-! ## DIN and the answers do not matter to Absorb -/

/-- The state with this DIN and these answers given. -/
def State.withSide (din : Word) (responses : List Response) (s : State) : State :=
  { s with din := din, responses := responses }

@[simp] theorem State.withSide_withSide (d d' : Word) (rs rs' : List Response) (s : State) :
    (s.withSide d' rs').withSide d rs = s.withSide d rs := rfl
@[simp] theorem State.withSide_blockLen (d : Word) (rs : List Response) (s : State) :
    (s.withSide d rs).blockLen = s.blockLen := rfl
@[simp] theorem State.withSide_h (d : Word) (rs : List Response) (s : State) : (s.withSide d rs).h = s.h := rfl
@[simp] theorem State.withSide_din (d : Word) (rs : List Response) (s : State) : (s.withSide d rs).din = d := rfl
@[simp] theorem State.withSide_responses (d : Word) (rs : List Response) (s : State) :
    (s.withSide d rs).responses = rs := rfl

theorem State.respond_eq_withSide (s : State) (r : Response) :
    s.respond r = s.withSide s.din (s.responses ++ [r]) := rfl

section
variable (d : Word) (rs : List Response) (s : State)

theorem State.closeIfFull_withSide : (s.withSide d rs).closeIfFull = s.closeIfFull.withSide d rs := by
  unfold State.closeIfFull
  rw [State.withSide_blockLen]
  split <;> rfl

theorem absorb_withSide (x : Byte) : absorb x (s.withSide d rs) = mapNext (State.withSide d rs) (absorb x s) := by
  unfold absorb
  rw [State.withSide_blockLen]
  split
  · exact congrArg Outcome.next ((s.appendByte x).closeIfFull_withSide d rs)
  · rfl

theorem absorbAll_withSide (xs : List Byte) :
    absorbAll xs (s.withSide d rs) = mapNext (State.withSide d rs) (absorbAll xs s) := by
  induction xs generalizing s with
  | nil => rfl
  | cons x xs ih =>
    simp only [absorbAll, absorb_withSide]
    cases absorb x s with
    | next t => exact ih t
    | fault r => rfl
    | refused r => rfl

end

/-! ## A context that takes `n` more bytes -/

/-- UPDATEs of `n` bytes in all pass the guards (R102 to R104). -/
structure Accepts (s : State) (n : Nat) : Prop where
  blockLen_le : s.blockLen.toNat ≤ 63
  opened : s.finalized = false
  bounded : s.bitLen.toNat + 8 * (s.blockLen.toNat + n) < 2 ^ 64

theorem Accepts.withSide {s : State} {n : Nat} (h : Accepts s n) (d : Word) (rs : List Response) :
    Accepts (s.withSide d rs) n := ⟨h.blockLen_le, h.opened, h.bounded⟩

theorem Accepts.mono {s : State} {m n : Nat} (h : Accepts s n) (hmn : m ≤ n) : Accepts s m :=
  ⟨h.blockLen_le, h.opened, by have := h.bounded; omega⟩

theorem Accepts.initContext (s : State) {n : Nat} (hn : 8 * n < 2 ^ 64) : Accepts s.initContext n :=
  ⟨Nat.zero_le _, rfl, by
    simp only [State.initContext_bitLen, State.initContext_blockLen, BitVec.ofNat_eq_ofNat, BitVec.toNat_zero]
    omega⟩

theorem absorb_accepts {x : Byte} {s t : State} {n : Nat} (h : Accepts s (n + 1)) (ht : absorb x s = .next t) :
    Accepts t n := by
  have hbound := h.bounded
  refine ⟨absorb_blockLen_le ht, (absorb_frame ht).1.trans h.opened, ?_⟩
  obtain ⟨hl, rfl⟩ := absorb_eq_next.1 ht
  by_cases hfull : s.blockLen.toNat = 63
  · rw [State.appendByte_full x hfull]
    simp only [State.countBlock_bitLen, State.countBlock_blockLen, State.compressBuf_bitLen, State.appendByte_bitLen,
      BitVec.toNat_add, BitVec.ofNat_eq_ofNat, BitVec.toNat_ofNat]
    omega
  · rw [State.appendByte_not_full x (by omega), State.appendByte_blockLen_toNat s x hl, State.appendByte_bitLen]
    omega

/-- Bytes that the context takes are absorbed, and it takes what is left. -/
theorem Accepts.absorbAll (xs : List Byte) {s : State} {n : Nat} (h : Accepts s (xs.length + n)) :
    ∃ t, absorbAll xs s = .next t ∧ Accepts t n := by
  obtain ⟨t, ht⟩ := absorbAll_completes xs s h.blockLen_le
  refine ⟨t, ht, ?_⟩
  induction xs generalizing s with
  | nil => cases ht; simpa using h
  | cons x xs ih =>
    obtain ⟨u, hu, hut⟩ := absorbAll_cons_eq_next.1 ht
    rw [List.length_cons, Nat.add_right_comm] at h
    exact ih (absorb_accepts h hu) hut

/-! ## Serving the host's statements -/

theorem stmtMove_updateByte (b : Byte) : stmtMove (.updateByte b) = .write 0x00 4 (encode (.updateByte b)) := by
  have hword : ∀ b : Byte, (0x02000000 : Word) + b.setWidth 32 = encode (.updateByte b) := by decide
  rw [stmtMove, hword]

theorem stmtMove_updateDin (n : Fin 5) :
    stmtMove (.updateDin n) = .write 0x00 4 (encode (.updateDin (BitVec.ofNat 3 n.val))) := by
  have hword : ∀ n : Fin 5,
      (0x03000000 : Word) + BitVec.ofNat 32 n.val = encode (.updateDin (BitVec.ofNat 3 n.val)) := by decide
  rw [stmtMove, hword]

theorem serveAll_cons {m : HostMove} {s t : State} (h : serve m s = .next t) (hm : hostGoesOn m = true)
    (rest : List HostMove) : serveAll (m :: rest) s = serveAll rest t := by
  simp only [serveAll, h, hm, if_true]

/-- A CMD write of a command's word runs the command and is answered `OK`, and the host goes on (R59, R76). -/
theorem serveAll_command {i : Instr} {s t : State} (hi : i.wellFormed = true) (h : exec i s = .next t)
    (rest : List HostMove) :
    serveAll (.write 0x00 4 (encode i) :: rest) s = serveAll rest (t.respond .ok) := by
  refine serveAll_cons ?_ (hostGoesOn_word 0x00 (encode i) (by decide) (by decide)).2 rest
  rw [serve_cmd, executeWord_ok s (decode_encode hi), h]
  rfl

/-- A SETDIN leaves the value in DIN and is answered `OK`, and the host goes on (R32, R78). -/
theorem serveAll_setDin (v : Word) (s : State) (rest : List HostMove) :
    serveAll (stmtMove (setDin v) :: rest) s = serveAll rest (s.withSide v (s.responses ++ [.ok])) :=
  serveAll_cons rfl (hostGoesOn_word 0x04 v (by decide) (by decide)).2 rest

/-! ## Moves that feed bytes -/

/-- On every context that takes the bytes, the moves absorb them, each move is answered `OK`, and the host goes on; what
DIN holds then is left open. -/
def Feeds (moves : List HostMove) (bytes : List Byte) : Prop :=
  ∀ s : State, Accepts s bytes.length → ∃ t d, absorbAll bytes s = .next t ∧
    ∀ rest, serveAll (moves ++ rest) s =
      serveAll rest (t.withSide d (s.responses ++ List.replicate moves.length .ok))

theorem feeds_nil : Feeds [] [] := fun s _ => ⟨s, s.din, rfl, fun rest => by
  rw [List.length_nil, List.replicate_zero, List.append_nil, List.nil_append]
  rfl⟩

theorem Feeds.append {ms ms' : List HostMove} {xs xs' : List Byte} (h : Feeds ms xs) (h' : Feeds ms' xs') :
    Feeds (ms ++ ms') (xs ++ xs') := by
  intro s hs
  rw [List.length_append] at hs
  obtain ⟨t, d, ht, hserve⟩ := h s (hs.mono (Nat.le_add_right _ _))
  obtain ⟨t', ht', hacc⟩ := hs.absorbAll
  cases ht.symm.trans ht'
  obtain ⟨u', d', hu', hserve'⟩ := h' _ (hacc.withSide d (s.responses ++ List.replicate ms.length .ok))
  obtain ⟨u, hu, -⟩ := Accepts.absorbAll xs' (n := 0) hacc
  rw [absorbAll_withSide, hu] at hu'
  cases hu'
  refine ⟨u, d', (absorbAll_append_next ht).trans hu, fun rest => ?_⟩
  rw [List.append_assoc, hserve, hserve', State.withSide_withSide, State.withSide_responses, List.append_assoc,
    List.replicate_append_replicate, List.length_append]

/-- UPDATE_BYTE feeds its byte. -/
theorem feeds_updateByte (b : Byte) : Feeds [stmtMove (.updateByte b)] [b] := by
  intro s hs
  obtain ⟨t, ht, -⟩ := Accepts.absorbAll [b] (n := 0) hs
  obtain ⟨-, -, hside⟩ := absorbAll_frame _ ht
  have hexec : exec (.updateByte b) s = .next t :=
    (exec_update (i := .updateByte b) rfl hs.opened hs.bounded).trans ht
  refine ⟨t, t.din, ht, fun rest => ?_⟩
  rw [stmtMove_updateByte, List.singleton_append, serveAll_command rfl hexec, State.respond_eq_withSide,
    hside.responses]
  rfl

/-- SETDIN and UPDATE_DIN feed the first bytes of the word, most significant first (R73). -/
theorem feeds_setDin_updateDin (v : Word) (n : Fin 5) :
    Feeds [stmtMove (setDin v), stmtMove (.updateDin n)] ((be32inv v).take n.val) := by
  intro s hs
  have hn : (BitVec.ofNat 3 n.val).toNat = n.val := Nat.mod_eq_of_lt (by omega)
  have hbytes : (be32inv v).take n.val = dinBytes v (BitVec.ofNat 3 n.val) := by rw [dinBytes, hn]
  have hlegal : isUpdate (.updateDin (BitVec.ofNat 3 n.val)) = true := decide_eq_true (by omega)
  rw [hbytes] at hs ⊢
  obtain ⟨t, ht, -⟩ := Accepts.absorbAll _ (n := 0) hs
  have hset := hs.withSide v (s.responses ++ [.ok])
  have hexec : exec (.updateDin (BitVec.ofNat 3 n.val)) (s.withSide v (s.responses ++ [.ok])) =
      .next (t.withSide v (s.responses ++ [.ok])) := by
    refine (exec_update hlegal hset.opened hset.bounded).trans ((absorbAll_withSide _ _ s _).trans ?_)
    rw [absorbedBytes, State.withSide_din, ht]
    rfl
  refine ⟨t, v, ht, fun rest => ?_⟩
  rw [List.cons_append, serveAll_setDin, List.singleton_append, stmtMove_updateDin,
    serveAll_command (i := .updateDin _) hlegal hexec, State.respond_eq_withSide, State.withSide_withSide,
    State.withSide_din, State.withSide_responses, List.append_assoc]
  rfl

theorem be32inv_be32 (a b c d : Byte) : be32inv (be32 a b c d) = [a, b, c, d] := by
  have hd : wordByte (be32 a b c d) 3 = d := BitVec.extractLsb'_append_eq_right
  have hc : wordByte (be32 a b c d) 2 = c :=
    (BitVec.extractLsb'_append_eq_of_le (by decide)).trans BitVec.extractLsb'_append_eq_right
  have hb : wordByte (be32 a b c d) 1 = b :=
    (BitVec.extractLsb'_append_eq_of_le (by decide)).trans
      ((BitVec.extractLsb'_append_eq_of_le (by decide)).trans BitVec.extractLsb'_append_eq_right)
  have ha : wordByte (be32 a b c d) 0 = a :=
    (BitVec.extractLsb'_append_eq_of_le (by decide)).trans
      ((BitVec.extractLsb'_append_eq_of_le (by decide)).trans BitVec.extractLsb'_append_eq_left)
  rw [be32inv, ha, hb, hc, hd]

theorem feeds_feed (bytes : List Byte) : Feeds (stmtMoves (feed bytes)) bytes := by
  induction bytes with
  | nil => exact feeds_nil
  | cons b bytes ih => exact (feeds_updateByte b).append ih

/-- A chunk of FEEDW (R78). -/
theorem feeds_chunk (a b c d : Byte) (n : Fin 5) :
    Feeds (stmtMoves [setDin (be32 a b c d), .updateDin n]) ([a, b, c, d].take n.val) := by
  rw [← be32inv_be32]
  exact feeds_setDin_updateDin _ n

theorem feeds_feedW (bytes : List Byte) : Feeds (stmtMoves (feedW bytes)) bytes := by
  induction bytes using feedW.induct with
  | case1 => exact feeds_nil
  | case2 a => exact feeds_chunk a 0 0 0 1
  | case3 a b => exact feeds_chunk a b 0 0 2
  | case4 a b c => exact feeds_chunk a b c 0 3
  | case5 a b c d rest ih => exact (feeds_chunk a b c d 4).append ih

/-- Settles O47: both feed the bytes, so they end in states that differ in DIN and the answers alone. -/
theorem feedWordsEqualsFeedBytes : Obligations.FeedWordsEqualsFeedBytes := by
  intro s bytes hb hf hl
  obtain ⟨t, d, ht, hserve⟩ := feeds_feed bytes s ⟨hb, hf, hl⟩
  obtain ⟨u, d', hu, hserve'⟩ := feeds_feedW bytes s ⟨hb, hf, hl⟩
  cases ht.symm.trans hu
  have hfeed := hserve []
  have hfeedW := hserve' []
  rw [List.append_nil] at hfeed hfeedW
  exact ⟨_, _, hfeed, hfeedW, rfl, rfl, rfl, rfl, fun _ _ => rfl⟩

/-! ## HASH -/

/-- Reads of the H registers are answered by their words in order (R51, R156). -/
theorem serveAll_readH (is : List (Fin 8)) (s : State) :
    serveAll (is.map fun i => .read (0x20 + 4 * i.val) 4) s =
      .next (s.withSide s.din (s.responses ++ is.map fun i => .data (chainWord s.h i))) := by
  induction is generalizing s with
  | nil =>
    rw [List.map_nil, List.map_nil, List.append_nil]
    rfl
  | cons i is ih =>
    have hreg : regAt (0x20 + 4 * i.val) = .h i := by revert i; decide
    have hserve : serve (.read (0x20 + 4 * i.val) 4) s =
        .next (s.withSide s.din (s.responses ++ [.data (chainWord s.h i)])) := by
      rw [serve_read_reg s (by omega) (by omega), hreg]
      rfl
    rw [List.map_cons, serveAll_cons hserve (hostGoesOn_word _ 0 (by omega) (by omega)).1, ih]
    simp

/-- DIGEST is answered by the words of H in order (R78, R156). -/
theorem serveAll_digestReads (s : State) :
    serveAll (stmtMoves digestReads) s = .next (s.withSide s.din (s.responses ++
      [.data s.h.h0, .data s.h.h1, .data s.h.h2, .data s.h.h3,
       .data s.h.h4, .data s.h.h5, .data s.h.h6, .data s.h.h7])) :=
  serveAll_readH [0, 1, 2, 3, 4, 5, 6, 7] s

/-- FINALIZE of an open context that holds `m` leaves its digest. -/
theorem Absorbed.exec_finalize {s : State} {m : List Byte} (h : Absorbed s m) :
    ∃ t, exec .finalize s = .next t ∧ Digested t m ∧ KeepsErrors s t ∧ KeepsHostSide s t :=
  ⟨_, execFinalize_eq_next.2 (.inr ⟨h.opened, Nat.lt_succ_of_le h.blockLen_le, rfl⟩), h.finalize_digested,
    s.finalize_frame⟩

theorem stmtMoves_hash (m : List Byte) :
    stmtMoves (pseudoExpand (.hash m)) = .write 0x00 4 (encode .init) ::
      (stmtMoves (feed m) ++ .write 0x00 4 (encode .finalize) :: stmtMoves digestReads) := by
  rw [pseudoExpand, List.cons_append, stmtMoves, List.map_cons, List.map_append, List.map_cons]
  rfl

/-- From every state INIT and FEED of `m` leave the unit holding `m`, each command answered `OK`. -/
theorem serveAll_init_feed (s : State) {m : List Byte} (hm : 8 * m.length < 2 ^ 64) :
    ∃ t, (∀ rest, serveAll (.write 0x00 4 (encode .init) :: (stmtMoves (feed m) ++ rest)) s = serveAll rest t) ∧
      Absorbed t m ∧ KeepsErrors s.initContext t ∧ t.responses = s.responses ++ List.replicate (m.length + 1) .ok := by
  have hinit : Absorbed (s.initContext.withSide s.din (s.responses ++ [.ok])) [] :=
    (initContext_absorbed s).congr rfl rfl rfl rfl rfl rfl
  obtain ⟨t, d, ht, hfeed⟩ := feeds_feed m _ ((Accepts.initContext s hm).withSide s.din (s.responses ++ [.ok]))
  obtain ⟨-, herrs, -⟩ := absorbAll_frame _ ht
  have hheld : Absorbed t m := absorbAll_absorbed m hinit (by simpa using hm) ht
  refine ⟨_, fun rest => (serveAll_command (i := .init) rfl rfl _).trans (hfeed rest),
    hheld.congr rfl rfl rfl rfl rfl rfl, ⟨herrs.err, herrs.errCode, herrs.record⟩, ?_⟩
  simp [stmtMoves, feed, List.replicate_succ]

/-- STATUS after a FINALIZE with no error recorded (R33). -/
theorem readReg_status_digested {s : State} {m : List Byte} (h : Digested s m) (herr : s.err = false)
    (hcode : s.errCode = 0) : readReg s .status = 0x00000001 := by
  rw [readReg, statusWord, herr, hcode, h.closed]
  rfl

/-- Settles O48: INIT and FEED leave the unit holding `m`, FINALIZE leaves its digest, and DIGEST reads it. -/
theorem hashReturnsSha256 : Obligations.HashReturnsSha256 := by
  intro s m hm
  obtain ⟨t, hfeed, hheld, herrs, hresp⟩ := serveAll_init_feed s hm
  obtain ⟨u, hu, hdig, herrs', hside⟩ := hheld.exec_finalize
  have hrun : serveAll (stmtMoves (pseudoExpand (.hash m))) s = serveAll (stmtMoves digestReads) (u.respond .ok) := by
    rw [stmtMoves_hash, hfeed, serveAll_command (i := .finalize) rfl hu]
  refine ⟨_, hrun.trans (serveAll_digestReads _), ?_, herrs'.record.trans herrs.record,
    readReg_status_digested (hdig.congr rfl rfl rfl rfl) (herrs'.err.trans herrs.err)
      (herrs'.errCode.trans herrs.errCode)⟩
  rw [State.withSide_responses, State.respond_responses, State.respond_h, hside.responses, hresp, hdig.chain,
    List.replicate_succ' (n := m.length + 1)]
  simp only [List.append_assoc]

end Sys2Proof.Machine

/-! PROOFS. The statements of the family 40_context.md: what INIT sets (R101), what `Absorb` and UPDATE_BYTE do with one
byte (R100, R102), that UPDATE_DIN is the UPDATE_BYTEs of its bytes (R105), and the digest of a whole run of commands
(R158). -/

namespace Sys2Proof.Machine

open Host (Outcome)

/-! ## INIT -/

theorem State.initContext_initContext (s : State) : s.initContext.initContext = s.initContext := rfl

/-- The STATUS word of an open context with no error recorded (R33). -/
theorem readReg_status_clear {s : State} (hf : s.finalized = false) (herr : s.err = false) (hcode : s.errCode = 0) :
    readReg s .status = 0 := by
  rw [readReg, statusWord, hf, herr, hcode]
  rfl

/-- Settles O11: INIT answers `initContext`, which a second INIT keeps. -/
theorem initResetsContext : Obligations.InitResetsContext := fun s =>
  ⟨s.initContext, rfl, ⟨rfl, rfl, rfl, rfl, rfl, rfl, rfl, rfl⟩, rfl, rfl, rfl, rfl, rfl,
    ⟨rfl, rfl, BitVec.extractLsb'_zero, readReg_status_clear rfl rfl rfl⟩, rfl,
    ⟨rfl, rfl, rfl, rfl⟩, ⟨rfl, rfl, rfl, rfl⟩, congrArg Outcome.next s.initContext_initContext⟩

/-! ## One byte -/

/-- Settles O12: the byte goes behind the block, which is then closed if it is full. -/
theorem absorbStoresOneByte : Obligations.AbsorbStoresOneByte := by
  intro s x hb
  have hlt : s.blockLen.toNat < 64 := Nat.lt_succ_of_le hb
  have ht : absorb x s = .next (s.appendByte x).closeIfFull := absorb_eq_next.2 ⟨hlt, rfl⟩
  obtain ⟨hfin, herrs, hside⟩ := absorb_frame ht
  refine ⟨_, ht, fun hroom => ?_, fun hfull => ?_, hfin, herrs, hside⟩
  · rw [State.appendByte_not_full x hroom]
    exact ⟨s.readBuf_appendByte x, s.appendByte_blockLen_toNat x hlt, rfl, rfl, ⟨rfl, rfl, rfl, rfl⟩⟩
  · have hblock : (s.appendByte x).block = (List.range 64).map fun a => if a = 63 then x else s.readBuf a :=
      State.block_eq_map fun a _ => by rw [State.readBuf_appendByte, hfull]
    rw [State.appendByte_full x hfull]
    refine ⟨rfl, BitVec.toNat_add _ _, ?_⟩
    rw [State.countBlock_h, State.compressBuf_h, State.appendByte_h, hblock]

/-- An UPDATE_BYTE that the guards let through is one `Absorb` (R102). -/
theorem exec_updateByte {s : State} (b : Byte) (hf : s.finalized = false)
    (hl : s.bitLen.toNat + 8 * (s.blockLen.toNat + 1) < 2 ^ 64) : exec (.updateByte b) s = absorb b s := by
  rw [exec_update (i := .updateByte b) rfl hf hl, absorbedBytes, absorbAll]
  cases absorb b s <;> rfl

/-- Settles O13: the command is one `Absorb`, and the length guard keeps `bit_len` from wrapping. -/
theorem updateByteAbsorbsItsByte : Obligations.UpdateByteAbsorbsItsByte := by
  intro s b hb hf hl
  obtain ⟨t, ht, hroom, hfull, hfin, herrs, hside⟩ := absorbStoresOneByte s b hb
  refine ⟨t, (exec_updateByte b hf hl).trans ht, hroom, fun h63 => ?_, hfin.trans hf, herrs, hside⟩
  obtain ⟨hlen, hbits, hh⟩ := hfull h63
  exact ⟨hlen, by rw [hbits, Nat.mod_eq_of_lt (by omega)], hh⟩

/-! ## Lists of UPDATEs -/

/-- Absorbing keeps the bound on the message's bits, with the absorbed bytes counted (R104). -/
theorem absorbAll_bounded {xs : List Byte} {s t : State} {n : Nat} (hf : s.finalized = false)
    (hl : s.bitLen.toNat + 8 * (s.blockLen.toNat + (xs.length + n)) < 2 ^ 64) (h : absorbAll xs s = .next t) :
    t.bitLen.toNat + 8 * (t.blockLen.toNat + n) < 2 ^ 64 := by
  cases xs with
  | nil => cases h; simpa using hl
  | cons x xs =>
    obtain ⟨u, hu, -⟩ := absorbAll_cons_eq_next.1 h
    obtain ⟨hlt, -⟩ := absorb_eq_next.1 hu
    obtain ⟨t', ht', hacc⟩ := Accepts.absorbAll (x :: xs) ⟨Nat.le_of_lt_succ hlt, hf, hl⟩
    cases h.symm.trans ht'
    exact hacc.bounded

/-- UPDATEs that the guards let through absorb their bytes in order, or meet the bound of `Buf` as these do (R105). -/
theorem execAll_updates (us : List Instr) {s : State} (hus : ∀ i ∈ us, isUpdate i = true) (hf : s.finalized = false)
    (hl : s.bitLen.toNat + 8 * (s.blockLen.toNat + (us.flatMap (absorbedBytes s.din)).length) < 2 ^ 64) :
    execAll us s = absorbAll (us.flatMap (absorbedBytes s.din)) s := by
  induction us generalizing s with
  | nil => rfl
  | cons i us ih =>
    obtain ⟨hi, hus⟩ := List.forall_mem_cons.1 hus
    rw [List.flatMap_cons, List.length_append] at hl
    rw [execAll, exec_update hi hf (by omega), List.flatMap_cons, absorbAll_append]
    cases ht : absorbAll (absorbedBytes s.din i) s with
    | next t =>
      obtain ⟨hfin, -, hside⟩ := absorbAll_frame _ ht
      have hbound := absorbAll_bounded hf hl ht
      rw [← hside.din] at hbound ⊢
      exact ih hus (hfin.trans hf) hbound
    | fault r => rfl
    | refused r => rfl

theorem flatMap_absorbedBytes_updateByte (din : Word) (bytes : List Byte) :
    (bytes.map Instr.updateByte).flatMap (absorbedBytes din) = bytes :=
  (List.flatMap_map ..).trans (List.flatMap_singleton' bytes)

/-- Settles O15: both absorb the bytes of DIN in order. -/
theorem updateDinEqualsByteUpdates : Obligations.UpdateDinEqualsByteUpdates := by
  intro s n hn hf hl
  rw [← dinBytes_length s.din hn] at hl
  have hbytes := flatMap_absorbedBytes_updateByte s.din (dinBytes s.din n)
  have hus : ∀ i ∈ (dinBytes s.din n).map Instr.updateByte, isUpdate i = true :=
    List.forall_mem_map.2 fun _ _ => rfl
  calc exec (.updateDin n) s
      = absorbAll (dinBytes s.din n) s := exec_update (i := .updateDin n) (decide_eq_true hn) hf hl
    _ = execAll ((dinBytes s.din n).map .updateByte) s := by rw [execAll_updates _ hus hf (by rwa [hbytes]), hbytes]

/-! ## A whole message -/

theorem execAll_cons_next {i : Instr} {s t : State} (h : exec i s = .next t) (is : List Instr) :
    execAll (i :: is) s = execAll is t := by rw [execAll, h]

theorem execAll_append_next {is : List Instr} {s t : State} (h : execAll is s = .next t) (js : List Instr) :
    execAll (is ++ js) s = execAll js t := by
  induction is generalizing s with
  | nil => cases h; rfl
  | cons i is ih =>
    cases hi : exec i s with
    | next u =>
      rw [execAll_cons_next hi] at h
      rw [List.cons_append, execAll_cons_next hi, ih h]
    | fault r => rw [execAll, hi] at h; cases h
    | refused r => rw [execAll, hi] at h; cases h

/-- Settles O45: INIT leaves the empty message, the UPDATEs absorb their bytes behind it, FINALIZE leaves the digest. -/
theorem messageDigestEndToEnd : Obligations.MessageDigestEndToEnd := by
  intro s us hus hm
  have hacc := Accepts.initContext s hm
  obtain ⟨t, ht, -⟩ := Accepts.absorbAll (us.flatMap (absorbedBytes s.din)) (n := 0) hacc
  obtain ⟨-, herrs, hside⟩ := absorbAll_frame _ ht
  have hheld : Absorbed t (us.flatMap (absorbedBytes s.din)) :=
    absorbAll_absorbed _ (initContext_absorbed s) (by rwa [List.length_nil, Nat.zero_add]) ht
  obtain ⟨u, hu, hdig, herrs', hside'⟩ := hheld.exec_finalize
  have hrun : execAll us s.initContext = .next t := (execAll_updates us hus hacc.opened hacc.bounded).trans ht
  refine ⟨u, ?_, hdig, herrs'.err.trans herrs.err, herrs'.errCode.trans herrs.errCode,
    herrs'.record.trans herrs.record, hside'.din.trans hside.din, hside'.phase.trans hside.phase,
    hside'.host.trans hside.host, hside'.responses.trans hside.responses⟩
  rw [List.cons_append, execAll_cons_next (i := .init) rfl, execAll_append_next hrun, execAll_cons_next hu]
  rfl

end Sys2Proof.Machine

/-! PROOFS. The statements of the family 41_compression.md: the compression on the 16-word window (R133, R239), how many
blocks a command compresses (R134, R157), the bit functions (R122 to R127, R136) and the message schedule (R128, R129). -/

namespace Sys2Proof.Machine

/-! ## The sequencer's compression -/

theorem State.goto_of_phase {s : State} {p : Phase} (h : s.phase = p) : s.goto p = s := by
  rw [← h]
  rfl

/-- The rounds write neither `H` nor `Buf` (R135). -/
theorem State.afterRounds_frame (s : State) (ret : Return) (w : Vector Word 16) (i : Nat) :
    (s.afterRounds ret w i).h = s.h ∧ (s.afterRounds ret w i).buf = s.buf ∧
      (s.afterRounds ret w i).bufDraw = s.bufDraw :=
  ⟨rfl, rfl, rfl⟩

/-- Behind the last round comes ADD (R240). -/
theorem State.afterRounds_phase (s : State) (ret : Return) (w : Vector Word 16) (i : Nat) :
    (s.afterRounds ret w i).phase = if i = 64 then .compress .add ret else .compress .round ret := rfl

/-- What a compression that returns to DONE leaves alone, and what it makes of `H` (R132, R240). -/
theorem State.compressBuf_returnTo_done (s : State) :
    (s.compressBuf.returnTo .done).h = compress s.h s.block ∧ (s.compressBuf.returnTo .done).phase = .done ∧
      (s.compressBuf.returnTo .done).blockLen = s.blockLen ∧ (s.compressBuf.returnTo .done).bitLen = s.bitLen ∧
      (s.compressBuf.returnTo .done).finalized = s.finalized ∧ KeepsErrors s (s.compressBuf.returnTo .done) ∧
      (s.compressBuf.returnTo .done).din = s.din ∧ (s.compressBuf.returnTo .done).host = s.host ∧
      (s.compressBuf.returnTo .done).responses = s.responses :=
  ⟨rfl, rfl, rfl, rfl, rfl, ⟨rfl, rfl, rfl⟩, rfl, rfl, rfl⟩

/-- Settles O31: LOAD and 64 rounds change the internal registers and the phase alone, and ADD makes the state that of the
compression executed at once. -/
theorem windowDatapathComputesCompress : Obligations.WindowDatapathComputesCompress := by
  intro s ret hload
  obtain ⟨w, -, hrounds⟩ := microRun_rounds s ret 64 (le_refl 64)
  have hrun := microRun_compress s ret
  rw [State.goto_of_phase hload] at hrounds hrun
  refine ⟨⟨_, hrounds, (s.afterRounds_phase ret w 64).trans (if_pos rfl), s.afterRounds_frame ret w 64⟩, hrun, ?_⟩
  rintro rfl
  exact ⟨_, hrun, s.compressBuf_returnTo_done⟩

/-! ## How many blocks a command compresses -/

/-- `Absorb` compresses exactly when its byte is the block's last (R100). -/
theorem absorb_draws {x : Byte} {s t : State} (h : absorb x s = .next t) :
    t.draws = if s.blockLen.toNat = 63 then s.draws + 1 else s.draws := by
  obtain ⟨hlt, rfl⟩ := absorb_eq_next.1 h
  by_cases hfull : s.blockLen.toNat = 63
  · rw [if_pos hfull, State.appendByte_full x hfull]
    rfl
  · rw [if_neg hfull, State.appendByte_not_full x (by omega)]
    rfl

/-- Absorbing compresses once for each block that the bytes fill. -/
theorem absorbAll_draws (xs : List Byte) {s t : State} (hb : s.blockLen.toNat ≤ 63) (h : absorbAll xs s = .next t) :
    t.draws = s.draws + (s.blockLen.toNat + xs.length) / 64 := by
  induction xs generalizing s with
  | nil =>
    cases h
    simp [Nat.div_eq_of_lt (Nat.lt_succ_of_le hb)]
  | cons x xs ih =>
    obtain ⟨u, hu, ht⟩ := absorbAll_cons_eq_next.1 h
    rw [ih (absorb_blockLen_le hu) ht, absorb_draws hu, absorb_blockLen_toNat hu, List.length_cons]
    split_ifs <;> omega

theorem absorbedBytes_length_le {i : Instr} (din : Word) : (absorbedBytes din i).length ≤ 4 := by
  cases i with
  | init => exact Nat.zero_le 4
  | updateByte b => exact Nat.le_add_left 1 3
  | updateDin n => exact List.length_take_le' _ _
  | finalize => exact Nat.zero_le 4

/-- The few bytes of a command fill at most one block (R103). -/
theorem absorbCompressions_eq_div {n0 count : Nat} (h : n0 + count < 128) :
    absorbCompressions n0 count = (n0 + count) / 64 := by
  unfold absorbCompressions
  split_ifs <;> omega

/-- The padding compresses only where it leaves no room for the length (R151, R152). -/
theorem State.pad_draws (s : State) : s.pad.draws = if s.blockLen.toNat < 56 then s.draws else s.draws + 1 := by
  unfold State.pad
  split_ifs <;> rfl

/-- FINALIZE compresses once more behind the padding (R157). -/
theorem State.finalize_draws (s : State) :
    s.pad.writeLength.compressBuf.seal.draws = s.draws + finalizeCompressions s.blockLen.toNat := by
  change s.pad.draws + 1 = _
  rw [State.pad_draws, finalizeCompressions]
  split_ifs <;> omega

theorem State.reject_record_ne (s : State) (code : ErrCode) : (s.reject code).record ≠ s.record := by simp

/-- An UPDATE that answers without a rejection has absorbed its bytes. -/
theorem absorbAll_of_exec {i : Instr} {s t : State} (hi : isUpdate i = true) (h : exec i s = .next t)
    (hrec : t.record = s.record) : absorbAll (absorbedBytes s.din i) s = .next t := by
  rcases exec_cases h with ⟨rfl, -⟩ | ⟨-, code, rfl, -⟩ | ⟨-, -, -, habs⟩ | ⟨rfl, -⟩
  · cases hi
  · exact absurd hrec (s.reject_record_ne code)
  · exact habs
  · cases hi

/-- A command that adds to the record is rejected. -/
theorem eq_reject_of_exec {i : Instr} {s t : State} (h : exec i s = .next t) (hrec : t.record ≠ s.record) :
    ∃ code, t = s.reject code := by
  rcases exec_cases h with ⟨-, rfl⟩ | ⟨-, code, rfl, -⟩ | ⟨-, -, -, habs⟩ | ⟨-, -, -, rfl⟩
  · exact absurd rfl hrec
  · exact ⟨code, rfl⟩
  · exact absurd (absorbAll_frame _ habs).2.1.record hrec
  · exact absurd s.finalize_frame.1.record hrec

/-- Settles O24: FINALIZE compresses behind the padding and, without room for the length, in it; an UPDATE that is not
rejected absorbs at most four bytes; a rejection compresses nothing. -/
theorem compressionCounts : Obligations.CompressionCounts := by
  intro s t hb
  refine ⟨fun hopen hexec => ?_, fun i hi hexec hrec => ?_, fun i hexec hrec => ?_⟩
  · rcases execFinalize_eq_next.1 hexec with ⟨hclosed, -⟩ | ⟨-, -, rfl⟩
    · simp [hopen] at hclosed
    · exact s.finalize_draws
  · have hlen : (absorbedBytes s.din i).length ≤ 4 := absorbedBytes_length_le s.din
    rw [absorbAll_draws _ hb (absorbAll_of_exec hi hexec hrec), absorbCompressions_eq_div (by omega)]
  · obtain ⟨code, rfl⟩ := eq_reject_of_exec hexec hrec
    rfl

/-! ## The bit functions -/

/-- A rotation only moves bits, so it distributes over exclusive or. -/
theorem rotr_xor (x y : Word) {n : Nat} (hn : n < 32) : rotr (x ^^^ y) n = rotr x n ^^^ rotr y n := by
  refine BitVec.eq_of_getLsbD_eq fun i hi => ?_
  rw [BitVec.getLsbD_xor, rotr_getLsbD _ hn hi, rotr_getLsbD _ hn hi, rotr_getLsbD _ hn hi]
  split_ifs <;> exact BitVec.getLsbD_xor

/-- Exclusive or taken of three terms at once. -/
theorem xor_xor_xor_distrib (a b c a' b' c' : Word) :
    (a ^^^ a') ^^^ (b ^^^ b') ^^^ (c ^^^ c') = (a ^^^ b ^^^ c) ^^^ (a' ^^^ b' ^^^ c') := by ac_rfl

/-- Settles O28: each sigma is the exclusive or of three terms, rotations and shifts, that are linear. -/
theorem sigmasAreLinear : Obligations.SigmasAreLinear := by
  intro x y
  refine ⟨?_, ?_, ?_, ?_⟩
  · simp (disch := decide) only [smallSigma0, rotr_xor, BitVec.ushiftRight_xor_distrib, xor_xor_xor_distrib]
  · simp (disch := decide) only [smallSigma1, rotr_xor, BitVec.ushiftRight_xor_distrib, xor_xor_xor_distrib]
  · simp (disch := decide) only [bigSigma0, rotr_xor, xor_xor_xor_distrib]
  · simp (disch := decide) only [bigSigma1, rotr_xor, xor_xor_xor_distrib]

/-- Bit `i` of Ch (R126). -/
theorem choose_getLsbD (e f g : Word) {i : Nat} (hi : i < 32) :
    (choose e f g).getLsbD i = if e.getLsbD i then f.getLsbD i else g.getLsbD i := by
  simp only [choose, BitVec.getLsbD_xor, BitVec.getLsbD_and, BitVec.getLsbD_not, hi, decide_true, Bool.true_and]
  cases e.getLsbD i <;> simp

/-- Bit `i` of Maj, as its definition has it (R127). -/
theorem majority_getLsbD (a b c : Word) (i : Nat) :
    (majority a b c).getLsbD i = (a.getLsbD i && (b.getLsbD i || c.getLsbD i) || b.getLsbD i && c.getLsbD i) := by
  simp only [majority, BitVec.getLsbD_or, BitVec.getLsbD_and]

/-- Settles O27: Ch and Maj work on each bit alone, and of one bit of each word there are eight cases. -/
theorem chooseAndMajorityBits : Obligations.ChooseAndMajorityBits := by
  refine ⟨fun e f g i hi => choose_getLsbD e f g hi, fun a b c i _ => ?_, fun a b c => ?_⟩
  · rw [majority_getLsbD]
    cases a.getLsbD i <;> cases b.getLsbD i <;> cases c.getLsbD i <;> decide
  · refine BitVec.eq_of_getLsbD_eq fun i _ => ?_
    rw [majority_getLsbD]
    simp only [BitVec.getLsbD_xor, BitVec.getLsbD_and]
    cases a.getLsbD i <;> cases b.getLsbD i <;> cases c.getLsbD i <;> rfl

/-! ## The message schedule -/

/-- Settles O29: the block's own words come first, and the expansion follows the recurrence. -/
theorem scheduleFollowsRecurrence : Obligations.ScheduleFollowsRecurrence := fun block =>
  ⟨schedule_length block, fun _ ht => schedule_getD_of_lt block ht,
    fun k hk hlt => schedule_followsRecurrence block k hk (by rwa [schedule_length])⟩

end Sys2Proof.Machine

/-! PROOFS. The statements of the family 42_finalize.md: that FINALIZE leaves the SHA-256 of the held message (R158), the
blocks that it compresses with and without room for the length (R150 to R155), and the bytes of the digest (R156). -/

namespace Sys2Proof.Machine

/-! ## FINALIZE of an open context -/

/-- Settles O44: the padded blocks that FINALIZE compresses are those of the held message. -/
theorem finalizeYieldsSha256 : Obligations.FinalizeYieldsSha256 := fun _ _ hs => hs.exec_finalize

theorem exec_finalize_open {s : State} (hf : s.finalized = false) (hb : s.blockLen.toNat < 64) :
    exec .finalize s = .next s.pad.writeLength.compressBuf.seal :=
  execFinalize_eq_next.2 (.inr ⟨hf, hb, rfl⟩)

/-- What FINALIZE leaves beside `H`, however it pads (R155). -/
theorem State.finalize_sealed {s : State} (hlen : s.bitLen.toNat + 8 * s.blockLen.toNat < 2 ^ 64) :
    let t := s.pad.writeLength.compressBuf.seal
    t.bitLen.toNat = s.bitLen.toNat + 8 * s.blockLen.toNat ∧ t.blockLen = 0 ∧ t.finalized = true ∧
      KeepsErrors s t ∧ KeepsHostSide s t :=
  ⟨by rw [s.finalize_bitLen, s.messageBits_toNat hlen], rfl, rfl, s.finalize_frame⟩

/-- Settles O22: the marked block has room for the length, and is compressed once with it. -/
theorem finalizeWithRoomForLength : Obligations.FinalizeWithRoomForLength := by
  intro s hf hb hlen
  have hroom : s.blockLen.toNat < 56 := by omega
  refine ⟨_, exec_finalize_open hf (by omega), ?_, ?_, State.finalize_sealed hlen⟩
  · rw [State.finalize_h_room hroom, s.finalize_bitLen]
    refine congrArg (compress s.h) (List.map_congr_left fun a _ => ?_)
    rw [State.markedByte]
    by_cases hlt : a < 56
    · rw [if_pos hlt, if_pos hlt]
    · rw [if_neg hlt, if_neg (by omega), if_neg (by omega), if_neg hlt]
      rfl
  · rw [s.finalize_draws, finalizeCompressions, if_pos hb]

/-- Settles O23: the marked block is compressed without the length, which a second block of zeros takes. -/
theorem finalizeWithoutRoomForLength : Obligations.FinalizeWithoutRoomForLength := by
  intro s hf h56 h63 hlen
  have hb : s.blockLen.toNat < 64 := by omega
  refine ⟨_, exec_finalize_open hf hb, ?_, State.finalize_sealed hlen⟩
  rw [State.finalize_h_noRoom h56 hb, s.finalize_bitLen]
  rfl

/-! ## The digest -/

/-- Words laid out in bytes: byte `4i + j` is byte `j` of word `i` (R11). -/
theorem flatMap_be32inv_getD {ws : List Word} {i j : Nat} (hi : i < ws.length) (hj : j < 4) :
    (ws.flatMap be32inv).getD (4 * i + j) 0 = wordByte ws[i] j := by
  induction ws generalizing i with
  | nil => cases hi
  | cons w ws ih =>
    rw [List.flatMap_cons]
    cases i with
    | zero =>
      rw [List.getD_append _ _ _ _ (show 4 * 0 + j < 4 by omega)]
      interval_cases j <;> rfl
    | succ i =>
      rw [List.getD_append_right _ _ _ _ (show 4 ≤ 4 * (i + 1) + j by omega),
        show 4 * (i + 1) + j - (be32inv w).length = 4 * i + j by change _ - 4 = _; omega]
      exact ih (Nat.lt_of_succ_lt_succ hi)

theorem digest_eq_flatMap (h : Chain) : digest h = (List.ofFn (chainWord h)).flatMap be32inv := rfl

/-- Settles O25: the digest is the words of H laid out in order, and a read of `Hi` returns word `i`. -/
theorem digestBytesAreRegisterBytes : Obligations.DigestBytesAreRegisterBytes := by
  refine fun s => ⟨rfl, fun i j hj => ?_⟩
  rw [digest_eq_flatMap, flatMap_be32inv_getD (by simp) hj, List.getElem_ofFn]
  rfl

end Sys2Proof.Machine

/-! PROOFS. The statements of the family 60_exceptions.md: what a rejection changes and when an UPDATE or FINALIZE gets one
(R200, R203, R204, R207, R208), the model's fault record (R218) and the idle unit (R217). -/

namespace Sys2Proof.Machine

/-! ## The fault record only grows -/

theorem KeepsErrors.record_prefix {s t : State} (h : KeepsErrors s t) : s.record <+: t.record :=
  ⟨[], by rw [List.append_nil, h.record]⟩

theorem State.reject_record_prefix (s : State) (code : ErrCode) : s.record <+: (s.reject code).record :=
  List.prefix_append _ _

theorem exec_record_prefix {i : Instr} {s t : State} (h : exec i s = .next t) : s.record <+: t.record := by
  rcases exec_cases h with ⟨-, rfl⟩ | ⟨-, code, rfl, -⟩ | ⟨-, -, -, habs⟩ | ⟨-, -, -, rfl⟩
  · exact List.prefix_rfl
  · exact s.reject_record_prefix code
  · exact (absorbAll_frame _ habs).2.1.record_prefix
  · exact s.finalize_frame.1.record_prefix

theorem executeWord_record_prefix {w : Word} {s t : State} (h : executeWord w s = .next t) :
    s.record <+: t.record := by
  rcases executeWord_cases h with ⟨-, rfl⟩ | ⟨i, -, hi⟩
  · exact s.reject_record_prefix .illegalCmd
  · exact exec_record_prefix hi

/-- A served move adds at most its own entries; reset clears none (R218). -/
theorem serve_record_prefix {m : HostMove} {s t : State} (h : serve m s = .next t) : s.record <+: t.record := by
  rcases serve_cases h with ⟨-, rfl⟩ | rfl | ⟨v, rfl⟩ | ⟨w, u, -, hu, rfl⟩ | ⟨v, -, rfl⟩ | rfl
  · exact List.prefix_rfl
  · exact List.prefix_append _ _
  · exact List.prefix_rfl
  · exact (executeWord_record_prefix hu : s.record <+: u.record)
  · exact List.prefix_rfl
  · exact List.prefix_rfl

section
variable (s : State)

@[simp] theorem State.toIdle_record : s.toIdle.record = s.record := rfl

@[simp] theorem State.absorbNext_record (rest : List Byte) : (s.absorbNext rest).record = s.record := by
  cases rest <;> rfl

@[simp] theorem State.decodeUpdate_record (xs : List Byte) : (s.decodeUpdate xs).record = s.record := by
  unfold State.decodeUpdate
  split_ifs <;> rfl

@[simp] theorem State.decodePhase_record (w : Word) : (s.decodePhase w).record = s.record := by
  unfold State.decodePhase
  split
  · rfl
  · rfl
  · exact s.decodeUpdate_record _
  · exact s.decodeUpdate_record _
  · split_ifs <;> rfl

@[simp] theorem State.absorbPhase_record (bytes : List Byte) : (s.absorbPhase bytes).record = s.record := by
  cases bytes with
  | nil => rfl
  | cons x rest =>
    simp only [State.absorbPhase]
    split_ifs
    · rfl
    · exact (s.appendByte x).absorbNext_record rest

@[simp] theorem State.mark80_record : s.mark80.record = s.record := s.writeBuf_record _ _

@[simp] theorem State.zeroBuf_record (a b : Nat) : (s.zeroBuf a b).record = s.record := s.writeBuf_record _ _

@[simp] theorem State.padRoom_record : s.padRoom.record = s.record := s.zeroBuf_record _ _

@[simp] theorem State.writeLength_record : s.writeLength.record = s.record := s.writeBuf_record _ _

@[simp] theorem State.loadPhase_record (ret : Return) : (s.loadPhase ret).record = s.record := rfl

@[simp] theorem State.roundPhase_record (ret : Return) : (s.roundPhase ret).record = s.record := by
  simp only [State.roundPhase]
  split_ifs <;> rfl

@[simp] theorem State.returnTo_record (ret : Return) : (s.returnTo ret).record = s.record := by
  cases ret with
  | absorb rest => exact s.countBlock.absorbNext_record rest
  | zeroFresh => rfl
  | done => rfl

@[simp] theorem State.addPhase_record (ret : Return) : (s.addPhase ret).record = s.record :=
  State.returnTo_record _ ret

end

theorem atBlockLen_eq_next {s u t : State} : atBlockLen s u = .next t ↔ s.blockLen.toNat < 64 ∧ t = u := by
  unfold atBlockLen
  split <;> simp [*, eq_comm]

/-- Of the sequencer's phases REJECT alone writes the record, and adds one entry (R218, R240). -/
theorem microStep_record {s t : State} (h : microStep s = .next t) :
    t.record = s.record ∨ ∃ code, s.phase = .reject code ∧ t.record = s.record ++ [.rejected code] := by
  cases hphase : s.phase with
  | reject code =>
    simp only [microStep, hphase] at h
    cases h
    exact .inr ⟨code, rfl, rfl⟩
  | absorb bytes =>
    simp only [microStep, hphase] at h
    split_ifs at h
    · cases h
      exact .inl s.toIdle_record
    · obtain ⟨-, rfl⟩ := atBlockLen_eq_next.1 h
      exact .inl (s.absorbPhase_record bytes)
  | pad80 =>
    simp only [microStep, hphase] at h
    obtain ⟨-, rfl⟩ := atBlockLen_eq_next.1 h
    exact .inl s.mark80_record
  | idle | decode _ | setIV | zero56 | zero64 | zeroFresh | lenField | done =>
    simp only [microStep, hphase] at h
    cases h
    exact .inl (by simp)
  | compress phase ret =>
    cases phase with
    | load | round | add =>
      simp only [microStep, hphase] at h
      cases h
      exact .inl (by simp)

theorem microStep_record_prefix {s t : State} (h : microStep s = .next t) : s.record <+: t.record := by
  rcases microStep_record h with hkeep | ⟨code, -, hadd⟩
  · exact ⟨[], by rw [List.append_nil, hkeep]⟩
  · exact ⟨_, hadd.symm⟩

/-- Settles O8: a step serves at most one move or is one phase of the sequencer, and neither takes an entry out. -/
theorem recordOnlyGrows : Obligations.RecordOnlyGrows := by
  intro s t h
  have hprefix : s.record <+: t.record := by
    by_cases hidle : s.phase = .idle
    · rcases step_cases hidle h with ⟨-, rfl⟩ | ⟨m, rest, -, hm⟩
      · exact List.prefix_rfl
      · exact serve_record_prefix (s := { s with host := rest }) hm
    · exact microStep_record_prefix ((step_not_idle hidle).symm.trans h)
  exact hprefix.imp fun _ => Eq.symm

/-! ## What a command does to the error record -/

/-- Settles O19: absorbing and finalizing keep the error record, and every other answer is a rejection. -/
theorem commandKeepsErrorsOrIsRejected : Obligations.CommandKeepsErrorsOrIsRejected := by
  intro i s t hi h
  rcases exec_cases h with ⟨hinit, -⟩ | ⟨-, code, rfl, -⟩ | ⟨-, -, -, habs⟩ | ⟨-, -, -, rfl⟩
  · exact absurd hinit hi
  · exact .inr ⟨code, rfl⟩
  · exact .inl (absorbAll_frame _ habs).2.1
  · exact .inl s.finalize_frame.1

/-- Settles O7: in IDLE a step serves the next move, and there is none. -/
theorem idleUnitKeepsState : Obligations.IdleUnitKeepsState := by
  intro s hidle hhost
  rw [step_idle hidle, serveNext, hhost]

/-! ## When an UPDATE is rejected -/

theorem exec_eq_update {i : Instr} (s : State) (hi : isUpdate i = true) :
    exec i s = update (absorbedBytes s.din i) s := by
  cases i with
  | init => cases hi
  | updateByte b => rfl
  | updateDin n => exact execUpdateDin_ok s (of_decide_eq_true hi)
  | finalize => cases hi

/-- The lifecycle check comes first, whatever the length (R207). -/
theorem exec_update_misuse {i : Instr} {s : State} (hi : isUpdate i = true) (hf : s.finalized = true) :
    exec i s = .next (s.reject .contextMisuse) := by
  rw [exec_eq_update s hi]
  exact update_eq_next.2 (.inl ⟨hf, rfl⟩)

/-- With the context open the length check decides (R104, R204). -/
theorem exec_update_lengthExceeded {i : Instr} {s : State} (hi : isUpdate i = true) (hf : s.finalized = false)
    (hl : 2 ^ 64 ≤ s.bitLen.toNat + 8 * (s.blockLen.toNat + (absorbedBytes s.din i).length)) :
    exec i s = .next (s.reject .lengthExceeded) := by
  rw [exec_eq_update s hi]
  exact update_eq_next.2 (.inr (.inl ⟨hf, decide_eq_false (Nat.not_lt.2 hl), rfl⟩))

theorem exec_finalize_misuse {s : State} (hf : s.finalized = true) :
    exec .finalize s = .next (s.reject .contextMisuse) :=
  execFinalize_eq_next.2 (.inl ⟨hf, rfl⟩)

/-- Settles O16: each of the three commands checks FINALIZED first. -/
theorem misuseAfterFinalizeIsRejected : Obligations.MisuseAfterFinalizeIsRejected := fun _ hf =>
  ⟨fun _ => ⟨_, exec_update_misuse rfl hf, rfl, rfl, rfl⟩,
    fun _ hn => ⟨_, exec_update_misuse (decide_eq_true hn) hf, rfl, rfl, rfl⟩,
    ⟨_, exec_finalize_misuse hf, rfl, rfl, rfl⟩⟩

/-- Settles O17: the length check counts the command's bytes, of which UPDATE_DIN 0 has none. -/
theorem lengthBoundIsEnforced : Obligations.LengthBoundIsEnforced := by
  intro s hf
  refine ⟨fun b hl => ⟨_, exec_update_lengthExceeded rfl hf hl, rfl, rfl⟩, fun n hn hl => ?_, fun hs => ?_⟩
  · rw [← dinBytes_length s.din hn] at hl
    exact ⟨_, exec_update_lengthExceeded (i := .updateDin n) (decide_eq_true hn) hf hl, rfl, rfl⟩
  · exact exec_update (i := .updateDin 0) rfl hf (hs.length_open hf)

theorem wellFormed_of_isUpdate {i : Instr} (hi : isUpdate i = true) : i.wellFormed = true := by
  cases i with
  | init => rfl
  | updateByte b => rfl
  | updateDin n => exact hi
  | finalize => rfl

/-- Settles O18: a bad access reaches no register, an illegal word no command, and an UPDATE checks FINALIZED before the
length. -/
theorem firstFailingCheckDecides : Obligations.FirstFailingCheckDecides := by
  refine ⟨fun s off n v hoff hbad => ?_, fun s w e he => ⟨_, executeWord_error s he, rfl⟩, fun s i hi hf => ?_⟩
  · have hbus := target_busError hoff hbad
    exact ⟨serve_busError s (decide_eq_true hbus), serve_busError s (decide_eq_true hbus)⟩
  · have hexec := (executeWord_ok s (decode_encode (wellFormed_of_isUpdate hi))).trans (exec_update_misuse hi hf)
    exact ⟨_, hexec, rfl⟩

end Sys2Proof.Machine
